-- ==== Sys2Proof/Word.lean ====
section
/-! DEFINITION. The word types of CPS-CODEC: one descriptor or response word, one buffer element, one decoded label. -/

namespace Sys2Proof

/-- One 32-bit word of a command descriptor or a response (30_encoding R75, R86; `CMDW` = 32 of 00_scope R11). -/
abbrev Word := BitVec 32

/-- One element of `IMG_IN`, `LAB_IN`, `IMG_OUT` or `SMP_IN` (20_memory R41; `EW` = 8 of 00_scope R11). -/
abbrev Byte := BitVec 8

/-- One element of `LAB_OUT` (20_memory R48; `OLW` = 38 of 00_scope R11). -/
abbrev LabelWord := BitVec 38

end Sys2Proof
end

