-- ==== Sys2Proof/Config.lean ====
section
/-! DEFINITION. What is fixed for the machine: the parameter table of 00_scope R11, what an element that nothing has
written reads as, and the one free value the spec leaves (a reset in flight). -/

namespace Sys2Proof.Config

/-- `NW`: width of register `N` and of the `n` field of `CFG` (00_scope R11). -/
abbrev nw : Nat := 4

/-- `NMAX`: the largest configurable bit width, `2^NW - 1` (00_scope R11). -/
abbrev nmax : Nat := 2 ^ nw - 1

/-- `NCH`: channels of a pixel (00_scope R11). -/
abbrev nch : Nat := 3

/-- `NF`: fields of a sample record (00_scope R11). -/
abbrev nf : Nat := 6

/-- `DW`: width of each extent field (00_scope R11). -/
abbrev dw : Nat := 16

/-- `SNW`: width of the sample count field (00_scope R11). -/
abbrev snw : Nat := 32

/-- `OLW`: width of one element of `LAB_OUT`, `2*NMAX + 8` (00_scope R11). -/
abbrev olw : Nat := 2 * nmax + 8

/-- The most elements an image space has: three planes of the largest extents (20_memory R44, R46, R54). 20_memory R43
counts the declared channel count `C`, up to 255, in the shape the host must have placed: that the three planes of R44 bound
the space, and not `C` planes, is the model's. DESIGN CHOICE, safe (entry 18). -/
abbrev imgLimit : Nat := nch * (2 ^ dw - 1) * (2 ^ dw - 1)

/-- The most elements `LAB_IN` has (20_memory R45, R54; entry 13). -/
abbrev labLimit : Nat := (2 ^ dw - 1) * (2 ^ dw - 1)

/-- The most elements `SMP_IN` has: six fields of the largest number of records (20_memory R47, R54). 20_memory R43 counts
the declared fields per record `F`, up to 255, in the shape the host must have placed: that the six fields of R47 bound the
space, and not `F` fields, is the model's. DESIGN CHOICE, safe (entry 18). -/
abbrev smpLimit : Nat := nf * (2 ^ snw - 1)

/-- The most elements `LAB_OUT` has (20_memory R48, R54; entry 13). -/
abbrev labOutLimit : Nat := 2 ^ snw - 1

/-- What an element of a buffer space that nothing has written reads as. The spec leaves it arbitrary but fixed
(10_state R30, 93 U11). DESIGN CHOICE, unsafe for a claim about the reset state's contents (entry 3). -/
def unwritten (w : Nat) : BitVec w := 0#w

/-- FREE VALUE (70_reset R231, 93 U4): whether the output element of the given index had been written when reset
came, for the given draw. Nothing is known of it. DESIGN CHOICE of form, safe (entry 10). -/
opaque writtenBeforeReset (draw index : Nat) : Bool

end Sys2Proof.Config
end

