-- ==== Sys2Proof/Syntax.lean ====
section
/-! DEFINITION. The three operations of CPS-CODEC with every descriptor field, one constructor per row of
spec/opcode_table.json. -/

namespace Sys2Proof

/-- The complete operation set (00_scope R4). A field has exactly the bits its format gives it (30_encoding R77, R80,
R81, R79: unsigned, unscaled), so every term of this type is a well-formed command (30_encoding R90). -/
inductive Instr where
  /-- `CFG n`: set the bit width per channel, once (41_configuration R120). -/
  | cfg (n : BitVec 4)
  /-- `ENC ietype, letype, irank, lrank, c, ih, iw, lh, lw`: encode a label grid into an image (42_encode R130). -/
  | enc (ietype letype irank lrank : BitVec 2) (c : BitVec 8) (ih iw lh lw : BitVec 16)
  /-- `DEC setype, f, ns`: decode a sequence of samples into labels (43_decode R150). -/
  | dec (setype : BitVec 2) (f : BitVec 8) (ns : BitVec 32)
  deriving DecidableEq, Repr

/-- The short form `ENC h, w` (30_encoding R88, R89). -/
def Instr.encShort (h w : BitVec 16) : Instr := .enc 0 0 3 2 3 h w h w

/-- The short form `DEC ns` (30_encoding R88, R89). -/
def Instr.decShort (ns : BitVec 32) : Instr := .dec 0 6 ns

end Sys2Proof
end

