-- ==== Sys2Proof/Decode.lean ====
section
/-! DEFINITION. The command descriptor's decoder, total on any list of words, and the encoder, both from the formats
of 30_encoding (R75 to R82). -/

namespace Sys2Proof

/-- Why a list of words is not a command. -/
inductive DecodeError where
  /-- No word was presented. -/
  | noWords
  /-- `op` = `00` is reserved (30_encoding R76, R84). -/
  | reservedOp
  /-- A reserved bit of `W0` is nonzero (30_encoding R84). -/
  | reservedBits
  /-- More or fewer words than the `op` of `W0` calls for (30_encoding R78; entry 6). -/
  | wrongLength
  deriving DecidableEq, Repr

/-- `op` = `W0[31:30]` (30_encoding R75). -/
def opField (w0 : Word) : BitVec 2 := w0.extractLsb' 30 2

/-- The length of a descriptor, from `W0[31:30]` alone (30_encoding R78). -/
def descriptorLength (w0 : Word) : Nat :=
  if opField w0 = 2#2 then 3 else if opField w0 = 3#2 then 2 else 1

/-- Format C (30_encoding R77). -/
def decodeCfg (w0 : Word) : Instr := .cfg (w0.extractLsb' 0 4)

/-- Format E (30_encoding R80). -/
def decodeEnc (w0 w1 w2 : Word) : Instr :=
  .enc (w0.extractLsb' 28 2) (w0.extractLsb' 26 2) (w0.extractLsb' 24 2) (w0.extractLsb' 22 2) (w0.extractLsb' 0 8)
    (w1.extractLsb' 16 16) (w1.extractLsb' 0 16) (w2.extractLsb' 16 16) (w2.extractLsb' 0 16)

/-- Format D (30_encoding R81). -/
def decodeDec (w0 w1 : Word) : Instr := .dec (w0.extractLsb' 28 2) (w0.extractLsb' 0 8) w1

/-- The reserved bits of `W0` for its `op`: `[29:4]` of `CFG`, `[21:8]` of `ENC`, `[27:8]` of `DEC`
(30_encoding R84). -/
def reservedBitsZero (w0 : Word) : Bool :=
  if opField w0 = 1#2 then w0.extractLsb' 4 26 == 0#26
  else if opField w0 = 2#2 then w0.extractLsb' 8 14 == 0#14
  else if opField w0 = 3#2 then w0.extractLsb' 8 20 == 0#20
  else true

/-- The decoder: one whole descriptor to the one operation it spells, or the reason it spells none (30_encoding R76 to
R81, R84). The state has no part in it (R78). -/
def decode : List Word → Except DecodeError Instr
  | [] => .error .noWords
  | w0 :: rest =>
    if opField w0 = 0#2 then .error .reservedOp
    else if reservedBitsZero w0 = false then .error .reservedBits
    else if opField w0 = 1#2 then
      match rest with
      | [] => .ok (decodeCfg w0)
      | _ => .error .wrongLength
    else if opField w0 = 2#2 then
      match rest with
      | [w1, w2] => .ok (decodeEnc w0 w1 w2)
      | _ => .error .wrongLength
    else
      match rest with
      | [w1] => .ok (decodeDec w0 w1)
      | _ => .error .wrongLength

/-- The encoder: the words of a command, from the same formats (30_encoding R77, R80, R81). -/
def encode : Instr → List Word
  | .cfg n => [(1#2 ++ 0#26 ++ n : BitVec 32)]
  | .enc ietype letype irank lrank c ih iw lh lw =>
    [(2#2 ++ ietype ++ letype ++ irank ++ lrank ++ 0#14 ++ c : BitVec 32), (ih ++ iw : BitVec 32),
      (lh ++ lw : BitVec 32)]
  | .dec setype f ns => [(3#2 ++ setype ++ 0#20 ++ f : BitVec 32), ns]

/-- The descriptor whose bits are `w`, the first word in bits 31..0, the second in 63..32, the third in 95..64; bits at
and above `nbits` are 0. It has as many words as its own `op` calls for. -/
def tableWords (nbits w : Nat) : List Word :=
  let v := w % 2 ^ nbits
  let w0 := BitVec.ofNat 32 v
  [w0, BitVec.ofNat 32 (v / 2 ^ 32), BitVec.ofNat 32 (v / 2 ^ 64)].take (descriptorLength w0)

/-- The instruction the decoder reads from a descriptor numbered as spec/opcode_table.json numbers it. -/
def decodeTableWord (nbits w : Nat) : Option Instr :=
  match decode (tableWords nbits w) with
  | .ok i => some i
  | .error _ => none

end Sys2Proof
end

