-- ==== Sys2Proof/Machine/State.lean ====
section
/-! DEFINITION. The state of the codec as plain data, the host's inputs, the reasons a step can stop, and reset. -/

namespace Sys2Proof.Machine

/-- A buffer space of `w`-bit elements, indexed from 0 (20_memory R40): the written elements as (index, value) pairs,
indices strictly rising, no entry equal to what an unlisted element reads as. At width 8 an entry is a `Host.Cell`. -/
abbrev Space (w : Nat) := List (Nat × BitVec w)

/-- The canonical form of a space. -/
abbrev Space.wf {w : Nat} (m : Space w) : Prop :=
  m.Pairwise (fun a b => a.1 < b.1) ∧ ∀ c ∈ m, c.2 ≠ Config.unwritten w

/-- Every listed element exists: its index is below the most elements the space has (20_memory R54;
entries 13 and 18). -/
abbrev Space.within {w : Nat} (m : Space w) (limit : Nat) : Prop := ∀ c ∈ m, c.1 < limit

/-- The five buffer spaces, and no other memory (20_memory R40). They are the host's (R42). -/
structure Memory where
  /-- `IMG_IN` (20_memory R44). -/
  imgIn : Space 8
  /-- `LAB_IN` (20_memory R45). -/
  labIn : Space 8
  /-- `IMG_OUT` (20_memory R46). -/
  imgOut : Space 8
  /-- `SMP_IN` (20_memory R47). -/
  smpIn : Space 8
  /-- `LAB_OUT`, elements of 38 bits (20_memory R48). -/
  labOut : Space 38
  deriving DecidableEq, Repr

/-- All five spaces are in canonical form and list only elements that exist. -/
abbrev Memory.wf (m : Memory) : Prop :=
  (m.imgIn.wf ∧ m.imgIn.within Config.imgLimit) ∧ (m.labIn.wf ∧ m.labIn.within Config.labLimit) ∧
  (m.imgOut.wf ∧ m.imgOut.within Config.imgLimit) ∧ (m.smpIn.wf ∧ m.smpIn.within Config.smpLimit) ∧
  (m.labOut.wf ∧ m.labOut.within Config.labOutLimit)

/-- The four spaces of 8-bit elements (20_memory R40, R41). -/
inductive ByteSpace where
  | imgIn | labIn | imgOut | smpIn
  deriving DecidableEq, Repr

/-- How host and platform treat the spaces of a command, and the codec, from its issue to its response
(20_memory R64, "host must"). -/
inductive Conduct where
  /-- As the contract asks: spaces disjoint, left alone, no reset. -/
  | proper
  /-- The platform maps two of the five spaces onto the same storage (20_memory R56, 93 U1). -/
  | overlapping
  /-- The host, or another instance, writes an input space or reads or writes the output space in flight
  (20_memory R60, 93 U2). -/
  | touching
  /-- Reset is asserted while the command is in flight (70_reset R231, 93 U4). -/
  | resetting
  deriving DecidableEq, Repr

/-- One thing the host does, in the order it does them (20_memory R42, R58; 70_reset R230). -/
inductive HostEvent where
  /-- Present the words of one command descriptor (30_encoding R75). -/
  | command (words : List Word) (conduct : Conduct)
  /-- Between commands, write one element of an 8-bit space (20_memory R42). -/
  | writeByte (space : ByteSpace) (index : Nat) (value : Byte)
  /-- Between commands, write one element of `LAB_OUT` (20_memory R42). -/
  | writeLabel (index : Nat) (value : LabelWord)
  /-- Assert reset between a response and the next command (70_reset R230). -/
  | reset
  deriving DecidableEq, Repr

/-- The codec and what stands before it. Only `bitWidth` is the codec's own state (10_state R20); the spaces and the
response are what the spec's step function takes and gives (R29); `inbox` and `draws` are the model's own
(entries 1 and 10). -/
structure State where
  /-- Register `N`, the bit width per channel; 0 is unconfigured (10_state R21). -/
  bitWidth : BitVec 4
  /-- The five buffer spaces (20_memory R40). -/
  mem : Memory
  /-- The response word of the latest command; `none` when none is pending (30_encoding R86, 10_state R30;
  entry 4). -/
  response : Option Word
  /-- What the host will do, the next first (20_memory R58; entry 1). -/
  inbox : List HostEvent
  /-- How many free draws have been made (entry 10). -/
  draws : Nat
  deriving DecidableEq, Repr

/-- Why the machine stops. No command faults (93 section 1: "Nothing in this hardware is modelled as `fault` or
`stuck`"). -/
inductive Fault where
  /-- Raised by a host write at or above the most elements the model gives the space (20_memory R44 to R48, R54;
  entries 13 and 18: for a declared `C` above 3 or `F` above 6 the bound is the model's choice).
  Safe: the run stops, nothing is claimed of it. -/
  | noSuchElement (index : Nat)
  deriving DecidableEq, Repr

/-- Why the model gives an input no meaning (00_scope R19, "Refuse"; 60_exceptions R203). All are safe: no claim is
made of the run after them. -/
inductive Refusal where
  /-- Raised by an arm of `exec` whose instruction has no meaning yet; no arm raises it now. -/
  | notModelled (mnemonic : String)
  /-- Raised by taking a descriptor that spells no operation (30_encoding R84, 93 U3; entries 6 and 7). -/
  | notACommand (reason : DecodeError)
  /-- Raised by taking an `ENC` or `DEC` whose spaces overlap (20_memory R56, 93 U1; entry 8). -/
  | overlappingSpaces
  /-- Raised by taking an `ENC` or `DEC` whose spaces are touched in flight (20_memory R60, 93 U2; entry 9). -/
  | touchedInFlight
  deriving DecidableEq, Repr

/-- The machine right after reset (10_state R30): `N` = 0 and no response pending are the spec's; the spaces, which the
spec leaves to the host, list nothing (entry 3); nothing is presented and nothing drawn (entries 1 and 10). -/
def State.reset : State where
  bitWidth := 0#4
  mem := { imgIn := [], labIn := [], imgOut := [], smpIn := [], labOut := [] }
  response := none
  inbox := []
  draws := 0

end Sys2Proof.Machine
end

