-- ==== Sys2Proof/Machine/Flags.lean ====
section
/-! DEFINITION. The codec keeps no flags and no status register (10_state R26). What stands in their place is the outcome
of a command: the four error kinds, the status codes and the response word. -/

namespace Sys2Proof.Machine

/-- The four error kinds (60_exceptions R190 to R194). -/
inductive ErrorKind where
  /-- R191. -/
  | configurationError
  /-- R192. -/
  | shapeMismatchError
  /-- R193. -/
  | rangeError
  /-- R194. -/
  | typeError
  deriving DecidableEq, Repr

/-- The outcome of a command: OK or one error kind (30_encoding R86). -/
inductive Status where
  | ok
  | error (kind : ErrorKind)
  deriving DecidableEq, Repr

/-- The `STATUS` code of an outcome (30_encoding R86). -/
def Status.code : Status → BitVec 3
  | .ok => 0
  | .error .configurationError => 1
  | .error .shapeMismatchError => 2
  | .error .rangeError => 3
  | .error .typeError => 4

/-- The response word: `STATUS` in bits [2:0], zeros above (30_encoding R86). -/
def Status.word (st : Status) : Word := (0#29 ++ st.code : BitVec 32)

end Sys2Proof.Machine
end

