-- ==== Sys2Proof/Machine/Operands.lean ====
section
/-! DEFINITION. The operand forms: the element type tag, the linear index of each element of the five spaces, and the
bit-partition helpers of 40_bit_partition_helpers, for every natural bit width. -/

namespace Sys2Proof.Machine

/-- Type tag `00`: every element is an unsigned 8-bit integer; the other three tags say it is not (30_encoding R82). -/
def isU8 (tag : BitVec 2) : Bool := tag == 0#2

/-! ### Linear indices (20_memory R44 to R48) -/

/-- `IMG_IN` and `IMG_OUT`: element (c, y, x) of shape (3, h, w) (20_memory R44, R46). -/
def imgIndex (h w c y x : Nat) : Nat := c * h * w + y * w + x

/-- `LAB_IN`: element (y, x) of shape (h, w) (20_memory R45). -/
def labIndex (w y x : Nat) : Nat := y * w + x

/-- `SMP_IN`: field f of record i (20_memory R47). -/
def smpIndex (i f : Nat) : Nat := 6 * i + f

/-! ### Bit-partition helpers (40_bit_partition_helpers) -/

/-- `mask(n)` (R101). -/
def mask (n : Nat) : Nat := 2 ^ n - 1

/-- `mask8(n)`, the mask cut to 8 bits (R101). -/
def mask8 (n : Nat) : Nat := min (2 ^ n) 256 - 1

/-- `~_8 v`, the complement within 8 bits (00_scope R14). -/
def complement8 (v : Nat) : Nat := 255 - v

/-- The label capacity in bits for bit width n, the source's `classBits` (10_state R22). -/
def classBitsOf (n : Nat) : Nat := 3 * n

/-- `field(n, L, c)`: the c-th n-bit field of the label (R102). -/
def field (n label c : Nat) : Nat := label / 2 ^ (c * n) % 2 ^ n

/-- `in_range(n, L)`, for any integer L (R103). -/
def inRange (n : Nat) (label : Int) : Bool := decide (0 ≤ label) && decide (label < 2 ^ classBitsOf n)

/-- `pack_channel(n, v, f)`: the low part of v replaced by f (R104). -/
def packChannel (n v f : Nat) : Nat := v / 2 ^ n * 2 ^ n + f

/-- The mask form of `pack_channel` on 8 bits (R104): `(v & (~_8 mask8(n))) | f`. -/
def packChannelMasked (n v f : Nat) : Nat := (v &&& complement8 (mask8 n)) ||| f

/-- `pack_pixel(n, (R, G, B), L)` (R107). -/
def packPixel (n r g b label : Nat) : Nat × Nat × Nat :=
  (packChannel n r (field n label 0), packChannel n g (field n label 1), packChannel n b (field n label 2))

/-- `extract(n, v)`: the low part of v (R105). -/
def extract (n v : Nat) : Nat := v % 2 ^ n

/-- `join(n, fr, fg, fb)`: the label whose fields they are (R106). -/
def join (n fr fg fb : Nat) : Nat := fb * 2 ^ (2 * n) + fg * 2 ^ n + fr

/-- `unpack_sample(n, r, g, b)`: the label carried by one sample (R108). -/
def unpackSample (n r g b : Nat) : Nat := join n (extract n r) (extract n g) (extract n b)

end Sys2Proof.Machine
end

