-- ==== Sys2Proof/Machine/Ops.lean ====
section
/-! DEFINITION. The named operations on a buffer space, on the memory and on the state, and the end of a command:
`raise` (the codec's whole "exception entry", 60_exceptions R200) and `returnOk`. There is no return from an error
(R202). -/

namespace Sys2Proof.Machine

/-! ### One buffer space -/

/-- `MemRead(S:i, 1)` (00_scope R15): the element at an index. -/
def Space.read {w : Nat} : Space w → Nat → BitVec w
  | [], _ => Config.unwritten w
  | (j, v) :: m, i => if i = j then v else Space.read m i

/-- The cell (i, v) put at its place, before the first greater index. -/
def Space.insertCell {w : Nat} (i : Nat) (v : BitVec w) : Space w → Space w
  | [] => [(i, v)]
  | (j, u) :: m => if i < j then (i, v) :: (j, u) :: m else (j, u) :: Space.insertCell i v m

/-- The space without the entry for an index. -/
def Space.erase {w : Nat} (m : Space w) (i : Nat) : Space w := m.filter fun c => c.1 != i

/-- `MemWrite(S:i, 1, v)` (00_scope R15): the element at an index becomes v, and no other changes. -/
def Space.write {w : Nat} (m : Space w) (i : Nat) (v : BitVec w) : Space w :=
  if v = Config.unwritten w then m.erase i else Space.insertCell i v (m.erase i)

/-- The entries that elements from index `start` on need, those that read as an unlisted one left out. -/
def Space.cellsFrom {w : Nat} (start : Nat) : List (BitVec w) → Space w
  | [] => []
  | v :: vs =>
    if v = Config.unwritten w then Space.cellsFrom (start + 1) vs
    else (start, v) :: Space.cellsFrom (start + 1) vs

/-- Every element of a declared shape written at once, in linear order from index 0 (20_memory R53, R55); elements
beyond the shape keep what they hold (93 U13). -/
def Space.writeBlock {w : Nat} (m : Space w) (vals : List (BitVec w)) : Space w :=
  Space.cellsFrom 0 vals ++ m.filter fun c => decide (vals.length ≤ c.1)

/-- Each element from one of two spaces, as `choose` says of its index (70_reset R231). -/
def Space.mix {w : Nat} (choose : Nat → Bool) (old new : Space w) : Space w :=
  (old.map Prod.fst ++ new.map Prod.fst).foldl (fun m i => if choose i then m.write i (new.read i) else m) old

/-! ### Memory -/

/-- The 8-bit space of a name. -/
def Memory.bytes (m : Memory) : ByteSpace → Space 8
  | .imgIn => m.imgIn
  | .labIn => m.labIn
  | .imgOut => m.imgOut
  | .smpIn => m.smpIn

/-- The memory with one 8-bit space replaced. -/
def Memory.setBytes (m : Memory) (sp : ByteSpace) (v : Space 8) : Memory :=
  match sp with
  | .imgIn => { m with imgIn := v }
  | .labIn => { m with labIn := v }
  | .imgOut => { m with imgOut := v }
  | .smpIn => { m with smpIn := v }

/-- The most elements an 8-bit space has (20_memory R44 to R47, R54; entries 13 and 18). -/
def ByteSpace.limit : ByteSpace → Nat
  | .imgIn => Config.imgLimit
  | .labIn => Config.labLimit
  | .imgOut => Config.imgLimit
  | .smpIn => Config.smpLimit

/-! ### State -/

/-- Register `N` as the bit width n of the helpers (10_state R21). -/
def State.n (s : State) : Nat := s.bitWidth.toNat

/-- `CLASSBITS`, the derived 6-bit value `3*N`, without storage (10_state R22). -/
def State.classBits (s : State) : BitVec 6 := BitVec.ofNat 6 (classBitsOf s.n)

/-- `N <- n` (41_configuration R120). -/
def State.setBitWidth (s : State) (n : BitVec 4) : State := { s with bitWidth := n }

/-- `IMG_OUT` replaced (20_memory R46). -/
def State.setImgOut (s : State) (m : Space 8) : State := { s with mem := { s.mem with imgOut := m } }

/-- `LAB_OUT` replaced (20_memory R48). -/
def State.setLabOut (s : State) (m : Space 38) : State := { s with mem := { s.mem with labOut := m } }

/-- An 8-bit space replaced. -/
def State.setBytes (s : State) (sp : ByteSpace) (m : Space 8) : State := { s with mem := s.mem.setBytes sp m }

/-- The events still to come replaced. -/
def State.setInbox (s : State) (evs : List HostEvent) : State := { s with inbox := evs }

/-- The one response word of a command (30_encoding R86). -/
def State.respond (s : State) (st : Status) : State := { s with response := some st.word }

/-! ### The end of a command -/

/-- `raise <Error>` (60_exceptions R200): the command ends, no space is written, `N` is not written, the response
carries the kind, and nothing else is saved anywhere. -/
def raise (kind : ErrorKind) (s : State) : State := s.respond (.error kind)

/-- `return OK` (00_scope R15). -/
def returnOk (s : State) : State := s.respond .ok

/-- How every command ends: with the error its checks found, nothing else changed, or with its effect and OK
(20_memory R57, 60_exceptions R201). -/
def finish (found : Option ErrorKind) (effect : State → State) (s : State) : State :=
  match found with
  | some kind => raise kind s
  | none => returnOk (effect s)

/-! ### Reset -/

/-- Reset between commands: `N <- 0`, no space touched, no response (70_reset R230). -/
def applyReset (s : State) : State := { s with bitWidth := 0#4, response := none }

/-- Reset while a command is in flight (70_reset R231): the command that would have taken `s` to `t` is abandoned; each
output element holds its old value or the one the command would have written, freely; no response; `N` is 0. -/
def abandon (s t : State) : State :=
  { s with
    bitWidth := 0#4
    response := none
    mem :=
      { s.mem with
        imgOut := Space.mix (Config.writtenBeforeReset s.draws) s.mem.imgOut t.mem.imgOut
        labOut := Space.mix (Config.writtenBeforeReset s.draws) s.mem.labOut t.mem.labOut }
    draws := s.draws + 1 }

/-! ### Host writes (20_memory R42) -/

/-- The host writes one element of an 8-bit space (R42); at and above the space's bound it faults. The bound is that of the
largest shape of R44 to R47, so an image of more than three planes or a record of more than six fields, which R43 lets a host
declare and no command reads, may pass it. DESIGN CHOICE, safe (entry 18). -/
def hostWriteByte (sp : ByteSpace) (i : Nat) (v : Byte) (s : State) : Host.Outcome State Fault Refusal :=
  if i < sp.limit then .next (s.setBytes sp ((s.mem.bytes sp).write i v)) else .fault (.noSuchElement i)

/-- The host writes one element of `LAB_OUT` (R42); at and above its bound it faults (R48, R54; entry 13). -/
def hostWriteLabel (i : Nat) (v : LabelWord) (s : State) : Host.Outcome State Fault Refusal :=
  if i < Config.labOutLimit then .next (s.setLabOut (s.mem.labOut.write i v)) else .fault (.noSuchElement i)

end Sys2Proof.Machine
end

