-- ==== Sys2Proof/Machine/Configuration.lean ====
section
/-! DEFINITION. The configuration family: `CFG` (41_configuration). -/

namespace Sys2Proof.Machine

/-- The first failing check of `CFG n` on a codec whose register holds `now` (41_configuration R120): already
configured (R123), or a bit width that is not positive (R121). -/
def cfgError (now n : BitVec 4) : Option ErrorKind :=
  if now ≠ 0#4 then some .configurationError
  else if n.toNat ≤ 0 then some .configurationError
  else none

/-- `CFG n` (41_configuration R120): sets the bit width once; no upper bound is checked (R122). -/
def execCfg (n : BitVec 4) (s : State) : Host.Outcome State Fault Refusal :=
  .next (finish (cfgError s.bitWidth n) (fun s => s.setBitWidth n) s)

end Sys2Proof.Machine
end

