-- ==== Sys2Proof/Machine/Extractor.lean ====
section
/-! DEFINITION. The decode family: `DEC`, the 3-channel bit-partition extractor (43_decode). -/

namespace Sys2Proof.Machine

/-- The first failing check of `DEC`, in the order of 60_exceptions R196 (43_decode R150 to R152). The data are not
checked (R155). -/
def decError (now : BitVec 4) (setype : BitVec 2) (f : BitVec 8) : Option ErrorKind :=
  if now = 0#4 then some .configurationError
  else if isU8 setype = false then some .typeError
  else if f.toNat ≠ Config.nf then some .shapeMismatchError
  else none

/-- The label `DEC` recovers from record i: its fields 3, 4, 5 are r, g, b (43_decode R150, R153). -/
def decElement (n : Nat) (smpIn : Space 8) (i : Nat) : LabelWord :=
  BitVec.ofNat 38
    (unpackSample n (smpIn.read (smpIndex i 3)).toNat (smpIn.read (smpIndex i 4)).toNat
      (smpIn.read (smpIndex i 5)).toNat)

/-- The recovered labels, one per sample, in order (20_memory R48). -/
def decLabels (n : Nat) (smpIn : Space 8) (ns : Nat) : List LabelWord :=
  (List.range ns).map fun i => decElement n smpIn i

/-- The effect of a `DEC` whose checks passed: `LAB_OUT` holds the labels (43_decode R157). -/
def decEffect (ns : Nat) (s : State) : State :=
  s.setLabOut (s.mem.labOut.writeBlock (decLabels s.n s.mem.smpIn ns))

/-- `DEC` (43_decode R150). -/
def execDec (setype : BitVec 2) (f : BitVec 8) (ns : BitVec 32) (s : State) : Host.Outcome State Fault Refusal :=
  .next (finish (decError s.bitWidth setype f) (decEffect ns.toNat) s)

end Sys2Proof.Machine
end

