-- ==== Sys2Proof/Machine/Packer.lean ====
section
/-! DEFINITION. The encode family: `ENC`, the channel-packed label packer (42_encode). -/

namespace Sys2Proof.Machine

/-- Check 4 of `ENC`: every label of the declared grid is in range (42_encode R133). -/
def labelsInRange (n : Nat) (labIn : Space 8) (lh lw : Nat) : Bool :=
  (List.range lh).all fun y => (List.range lw).all fun x => inRange n ((labIn.read (labIndex lw y x)).toNat : Int)

/-- The first failing check of `ENC`, in the order of 60_exceptions R196 (42_encode R130 to R133). `LAB_IN` is read only
when the types and shapes are good. -/
def encError (now : BitVec 4) (labIn : Space 8) (ietype letype irank lrank : BitVec 2) (c : BitVec 8)
    (ih iw lh lw : BitVec 16) : Option ErrorKind :=
  if now = 0#4 then some .configurationError
  else if isU8 ietype = false ∨ isU8 letype = false then some .typeError
  else if irank.toNat ≠ 3 ∨ c.toNat ≠ Config.nch ∨ lrank.toNat ≠ 2 ∨ ih ≠ lh ∨ iw ≠ lw then some .shapeMismatchError
  else if labelsInRange now.toNat labIn lh.toNat lw.toNat = false then some .rangeError
  else none

/-- The value `ENC` writes to element (c, y, x) of an image of h rows and w columns (42_encode R136). -/
def encElement (n : Nat) (imgIn labIn : Space 8) (h w c y x : Nat) : Byte :=
  BitVec.ofNat 8
    (packChannel n (imgIn.read (imgIndex h w c y x)).toNat (field n (labIn.read (labIndex w y x)).toNat c))

/-- The encoded image, its elements in the linear order of 20_memory R44 (42_encode R135). -/
def encImage (n : Nat) (imgIn labIn : Space 8) (h w : Nat) : List Byte :=
  (List.range Config.nch).flatMap fun c => (List.range h).flatMap fun y => (List.range w).map fun x =>
    encElement n imgIn labIn h w c y x

/-- The effect of an `ENC` whose checks passed: `IMG_OUT` holds the encoded image, `IMG_IN` and `LAB_IN` are read only
(42_encode R138). -/
def encEffect (h w : Nat) (s : State) : State :=
  s.setImgOut (s.mem.imgOut.writeBlock (encImage s.n s.mem.imgIn s.mem.labIn h w))

/-- `ENC` (42_encode R130). -/
def execEnc (ietype letype irank lrank : BitVec 2) (c : BitVec 8) (ih iw lh lw : BitVec 16) (s : State) :
    Host.Outcome State Fault Refusal :=
  .next (finish (encError s.bitWidth s.mem.labIn ietype letype irank lrank c ih iw lh lw)
    (encEffect ih.toNat iw.toNat) s)

end Sys2Proof.Machine
end

