-- ==== Sys2Proof/Machine/Dispatch.lean ====
section
/-! DEFINITION. One arm per operation. -/

namespace Sys2Proof.Machine

def exec (i : Instr) (s : State) : Host.Outcome State Fault Refusal :=
  match i with
  | .cfg n => Sys2Proof.Machine.execCfg n s
  | .enc ietype letype irank lrank c ih iw lh lw => Sys2Proof.Machine.execEnc ietype letype irank lrank c ih iw lh lw s
  | .dec setype f ns => Sys2Proof.Machine.execDec setype f ns s

end Sys2Proof.Machine
end

