-- ==== Sys2Proof/Machine/Events.lean ====
section
/-! DEFINITION. Taking one host event: a command under the host's conduct, a host write, reset. And `flatten`, the host's
own step between `ENC` and `DEC` (20_memory R65). -/

namespace Sys2Proof.Machine

/-- Whether a command is given buffer spaces: `CFG` reaches none (20_memory R49, R64). -/
def usesSpaces : Instr → Bool
  | .cfg _ => false
  | .enc _ _ _ _ _ _ _ _ _ => true
  | .dec _ _ _ => true

/-- A command in flight that reset abandons (70_reset R231). -/
def execAbandoned (i : Instr) (s : State) : Host.Outcome State Fault Refusal :=
  match exec i s with
  | .next t => .next (abandon s t)
  | .fault r => .fault r
  | .refused r => .refused r

/-- A command under the host's and the platform's conduct (20_memory R56, R60; 70_reset R231). A command that is given
no space can have none overlapping or touched, so it runs (entries 8 and 9). -/
def execUnder (conduct : Conduct) (i : Instr) (s : State) : Host.Outcome State Fault Refusal :=
  match conduct with
  | .proper => exec i s
  | .overlapping => if usesSpaces i then .refused .overlappingSpaces else exec i s
  | .touching => if usesSpaces i then .refused .touchedInFlight else exec i s
  | .resetting => execAbandoned i s

/-- A descriptor presented: the operation it spells, or refused if it spells none (30_encoding R84). -/
def takeCommand (words : List Word) (conduct : Conduct) (s : State) : Host.Outcome State Fault Refusal :=
  match decode words with
  | .ok i => execUnder conduct i s
  | .error reason => .refused (.notACommand reason)

/-- One host event. -/
def takeEvent (e : HostEvent) (s : State) : Host.Outcome State Fault Refusal :=
  match e with
  | .command words conduct => takeCommand words conduct s
  | .writeByte sp i v => hostWriteByte sp i v s
  | .writeLabel i v => hostWriteLabel i v s
  | .reset => .next (applyReset s)

/-- The next host event is taken from the inbox; with none, the codec waits and keeps everything
(60_exceptions R219). -/
def takeNext (s : State) : Host.Outcome State Fault Refusal :=
  match s.inbox with
  | [] => .next s
  | e :: rest => takeEvent e (s.setInbox rest)

/-- A state before which the host is about to present the descriptor whose bits are `w`, numbered as the opcode table
numbers them. -/
def presentTableWord (s : State) (nbits w : Nat) : State :=
  s.setInbox (.command (tableWords nbits w) .proper :: s.inbox)

/-- The record `flatten` makes of pixel i of an image of h rows and w columns, i = y*w + x: x, y, z as the host likes,
then the pixel's three channel values (20_memory R65). -/
def flattenRecord (h w : Nat) (img : Space 8) (xyz : Byte × Byte × Byte) (i : Nat) : List Byte :=
  [xyz.1, xyz.2.1, xyz.2.2, img.read (imgIndex h w 0 (i / w) (i % w)), img.read (imgIndex h w 1 (i / w) (i % w)),
    img.read (imgIndex h w 2 (i / w) (i % w))]

/-- `flatten` (20_memory R65): `SMP_IN` holding one record per pixel, row-major. `xyz` lists the opaque fields record by
record; a record the list does not reach gets zeros. -/
def flatten (h w : Nat) (img : Space 8) (xyz : List (Byte × Byte × Byte)) (smp : Space 8) : Space 8 :=
  smp.writeBlock ((List.range (h * w)).flatMap fun i => flattenRecord h w img (xyz.getD i (0, 0, 0)) i)

end Sys2Proof.Machine
end

