-- ==== Sys2Proof/Machine/Step.lean ====
section
/-! DEFINITION. The step: the next host event. And the state in which a given descriptor is presented next. -/

namespace Sys2Proof.Machine

/-- One step (10_state R29, 20_memory R57, R58). -/
def step (s : State) : Host.Outcome State Fault Refusal := takeNext s

/-- `s` with a descriptor put first in what the host presents (entry 1). -/
def State.withFetchWord (s : State) (nbits w : Nat) : State := presentTableWord s nbits w

end Sys2Proof.Machine
end

