-- ==== Sys2Proof/WellFormed.lean ====
section
/-! DEFINITION. Well-formed descriptors, from the opcode table's match and mask (30_encoding R90, R91) and the
lengths of R78. Written apart from the decoder, so that a statement can compare the two. -/

namespace Sys2Proof

/-- A row of the opcode table: `W0 & mask = pattern` selects it, and its descriptor has `words` words
(30_encoding R91, R78). -/
structure OpcodeRow where
  mask : Word
  pattern : Word
  words : Nat
  deriving DecidableEq, Repr

/-- The row of `CFG` (30_encoding R77). -/
def cfgRow : OpcodeRow := ⟨0xFFFFFFF0#32, 0x40000000#32, 1⟩

/-- The row of `ENC` (30_encoding R80). -/
def encRow : OpcodeRow := ⟨0xC03FFF00#32, 0x80000000#32, 3⟩

/-- The row of `DEC` (30_encoding R81). -/
def decRow : OpcodeRow := ⟨0xCFFFFF00#32, 0xC0000000#32, 2⟩

/-- The opcode map: three rows and no other (30_encoding R91). -/
def opcodeRows : List OpcodeRow := [cfgRow, encRow, decRow]

/-- A descriptor matches a row when `W0 & mask = match` (30_encoding R91). -/
def OpcodeRow.selects (r : OpcodeRow) (w0 : Word) : Bool := w0 &&& r.mask == r.pattern

/-- A well-formed descriptor (30_encoding R90): `W0` matches a row (its `op` is not `00` and its reserved bits are
zero) and there are exactly as many words as the row's length (R78). -/
def wellFormedDescriptor : List Word → Bool
  | [] => false
  | w0 :: rest => opcodeRows.any fun r => r.selects w0 && rest.length + 1 == r.words

end Sys2Proof
end

