-- ==== Sys2Proof/Safety.lean ====
section
/-! DEFINITION. What the statements call a good state and a host that keeps its duties (20_memory R42, R54, R64;
70_reset R232, R244). -/

namespace Sys2Proof.Machine

/-- A response register holds nothing or one of the five response words (30_encoding R86). -/
abbrev State.responseLegal (s : State) : Prop :=
  s.response = none ∨ s.response = some (Status.word .ok) ∨
  ∃ k ∈ [ErrorKind.configurationError, .shapeMismatchError, .rangeError, .typeError],
    s.response = some (Status.word (.error k))

/-- The invariant: the spaces are canonical and list only elements that exist, and the response is legal. -/
abbrev State.Inv (s : State) : Prop := s.mem.wf ∧ s.responseLegal

/-- A host event that keeps the host's duties: well-formed descriptors, spaces disjoint and left alone (reset may come at
any time, R231), writes only below the spaces' bounds (entries 13 and 18). -/
def HostEvent.dutiful : HostEvent → Bool
  | .command words conduct => wellFormedDescriptor words && (conduct == .proper || conduct == .resetting)
  | .writeByte sp i _ => decide (i < sp.limit)
  | .writeLabel i _ => decide (i < Config.labOutLimit)
  | .reset => true

/-- Every event still to come keeps the host's duties. -/
def State.hostDutiful (s : State) : Bool := s.inbox.all HostEvent.dutiful

/-- The conditions under which each command raises each error kind, as the tables of 60_exceptions R191 to R194 give them,
written apart from the meanings' checks so that a statement can compare the two. -/
def raisedWhen : ErrorKind → Instr → State → Prop
  | .configurationError, .cfg n, s => n = 0#4 ∨ s.bitWidth ≠ 0#4
  | .configurationError, .enc _ _ _ _ _ _ _ _ _, s => s.bitWidth = 0#4
  | .configurationError, .dec _ _ _, s => s.bitWidth = 0#4
  | .typeError, .cfg _, _ => False
  | .typeError, .enc ietype letype _ _ _ _ _ _ _, _ => ietype ≠ 0#2 ∨ letype ≠ 0#2
  | .typeError, .dec setype _ _, _ => setype ≠ 0#2
  | .shapeMismatchError, .cfg _, _ => False
  | .shapeMismatchError, .enc _ _ irank lrank c ih iw lh lw, _ =>
    irank ≠ 3#2 ∨ c ≠ 3#8 ∨ lrank ≠ 2#2 ∨ ih ≠ lh ∨ iw ≠ lw
  | .shapeMismatchError, .dec _ f _, _ => f ≠ 6#8
  | .rangeError, .cfg _, _ => False
  | .rangeError, .enc _ _ _ _ _ _ _ lh lw, s =>
    ∃ y x, y < lh.toNat ∧ x < lw.toNat ∧ 2 ^ (3 * s.n) ≤ (s.mem.labIn.read (labIndex lw.toNat y x)).toNat
  | .rangeError, .dec _ _ _, _ => False

/-- The place of an error kind in the priority list of 60_exceptions R196. -/
def ErrorKind.rank : ErrorKind → Nat
  | .configurationError => 1
  | .typeError => 2
  | .shapeMismatchError => 3
  | .rangeError => 4

/-- The compute part of `ENC`'s pseudocode, element by element (42_encode R130): for y, for x, for c, one `MemWrite`. -/
def encLoop (n : Nat) (imgIn labIn : Space 8) (h w : Nat) (out : Space 8) : Space 8 :=
  (List.range h).foldl (fun m y => (List.range w).foldl (fun m x => (List.range 3).foldl (fun m c =>
    m.write (imgIndex h w c y x) (BitVec.ofNat 8 (packChannel n (imgIn.read (imgIndex h w c y x)).toNat
      (field n (labIn.read (labIndex w y x)).toNat c)))) m) m) out

/-- The compute part of `DEC`'s pseudocode, record by record (43_decode R150). -/
def decLoop (n : Nat) (smpIn : Space 8) (ns : Nat) (out : Space 38) : Space 38 :=
  (List.range ns).foldl (fun m i => m.write i (BitVec.ofNat 38 (unpackSample n (smpIn.read (smpIndex i 3)).toNat
    (smpIn.read (smpIndex i 4)).toNat (smpIn.read (smpIndex i 5)).toNat))) out

/-- The labels of a grid of h rows and w columns are all in range for bit width n (42_encode R133). -/
def LabelsBelow (n h w : Nat) (lab : Space 8) : Prop :=
  ∀ y x, y < h → x < w → (lab.read (labIndex w y x)).toNat < 2 ^ (3 * n)

/-- Two spaces hold the same values in the first `len` elements. -/
def AgreeBelow {w : Nat} (len : Nat) (a b : Space w) : Prop := ∀ k, k < len → a.read k = b.read k

/-- Sample records that carry the pixels of an image: what `flatten` gives, whatever it puts in x, y, z
(20_memory R65). -/
def CarriesPixels (h w : Nat) (img smp : Space 8) : Prop :=
  ∀ y x, y < h → x < w →
    smp.read (smpIndex (labIndex w y x) 3) = img.read (imgIndex h w 0 y x) ∧
    smp.read (smpIndex (labIndex w y x) 4) = img.read (imgIndex h w 1 y x) ∧
    smp.read (smpIndex (labIndex w y x) 5) = img.read (imgIndex h w 2 y x)

end Sys2Proof.Machine
end

