-- ==== Sys2Proof/Certificates/Slice0/Obligations.lean ====
section
/-! DEFINITION. The statements for the provers, one `def Obligations.<Name> : Prop` each. -/

open Sys2Proof Sys2Proof.Machine

/-! ### Reset, steps and host events -/

/-- 10_state R30, 70_reset R230: what reset leaves, and what the reset event does (nothing but the bit width and the
pending response changes). -/
def Obligations.ResetLeavesTheCodecUnconfigured : Prop :=
  State.reset.bitWidth = 0#4 ∧ State.reset.classBits = 0#6 ∧ State.reset.response = none ∧
  ∀ (s : State) (rest : List HostEvent), s.inbox = .reset :: rest →
    step s = .next { s with inbox := rest, bitWidth := 0#4, response := none }

/-- 20_memory R57, R58 through the model's own inbox (entry 1): a step on a properly presented descriptor is `exec` of the
operation it spells, on the state with that event taken. -/
def Obligations.StepRunsTheDecodedCommand : Prop :=
  ∀ (s : State) (words : List Word) (rest : List HostEvent) (i : Instr),
    s.inbox = .command words .proper :: rest → decode words = .ok i → step s = exec i { s with inbox := rest }

/-- 60_exceptions R219 (the model's choice of a stuttering step: entry 1): with nothing presented, the step keeps
everything. -/
def Obligations.IdleCodecKeepsEverything : Prop :=
  ∀ s : State, s.inbox = [] → step s = .next s

/-- 10_state R23: once nonzero the bit width changes only by reset, and it is set only by a `CFG` on an unconfigured codec.
Every step that changes it is a reset, a reset in flight, or such a `CFG`, which succeeds. -/
def Obligations.OnlyResetAndFirstCfgChangeTheBitWidth : Prop :=
  ∀ s t : State, step s = .next t → t.bitWidth ≠ s.bitWidth →
    (t.bitWidth = 0#4 ∧
      ((∃ rest, s.inbox = .reset :: rest) ∨ ∃ words rest, s.inbox = .command words .resetting :: rest)) ∨
    (s.bitWidth = 0#4 ∧
      ∃ words conduct rest n, s.inbox = .command words conduct :: rest ∧ decode words = .ok (.cfg n) ∧ t.bitWidth = n ∧
        t.response = some 0#32)

/-- 70_reset R231: a command abandoned by reset gives no response, leaves `N` = 0 and the input spaces unchanged, and
leaves each output element either its old value or the one the command would have written (the command completing as
`u`). Nothing says which. -/
def Obligations.ResetInFlightAbandonsTheCommand : Prop :=
  ∀ (s : State) (words : List Word) (rest : List HostEvent) (i : Instr),
    s.inbox = .command words .resetting :: rest → decode words = .ok i →
    ∃ t u, step s = .next t ∧ exec i { s with inbox := rest } = .next u ∧
      t.bitWidth = 0#4 ∧ t.response = none ∧ t.inbox = rest ∧
      t.mem.imgIn = s.mem.imgIn ∧ t.mem.labIn = s.mem.labIn ∧ t.mem.smpIn = s.mem.smpIn ∧
      (∀ k, t.mem.imgOut.read k = s.mem.imgOut.read k ∨ t.mem.imgOut.read k = u.mem.imgOut.read k) ∧
      (∀ k, t.mem.labOut.read k = s.mem.labOut.read k ∨ t.mem.labOut.read k = u.mem.labOut.read k)

/-- 20_memory R56, R60: an `ENC` or `DEC` whose spaces overlap, or are touched in flight, is refused, each under its own
name; a `CFG`, which is given no space, runs (the model's reading: entries 8 and 9). -/
def Obligations.MisusedSpacesAreRefused : Prop :=
  ∀ (s : State) (words : List Word) (rest : List HostEvent) (i : Instr), decode words = .ok i →
    (s.inbox = .command words .overlapping :: rest →
      ((∀ n, i ≠ .cfg n) → step s = .refused .overlappingSpaces) ∧
      ((∃ n, i = .cfg n) → step s = exec i { s with inbox := rest })) ∧
    (s.inbox = .command words .touching :: rest →
      ((∀ n, i ≠ .cfg n) → step s = .refused .touchedInFlight) ∧
      ((∃ n, i = .cfg n) → step s = exec i { s with inbox := rest }))

/-- 20_memory R42, R54 (the bound and its fault are the model's: entries 13 and 18): a host write to an element that exists
puts the value there and changes nothing else; one to an element that does not exist faults. -/
def Obligations.HostWritesOneElement : Prop :=
  (∀ (s : State) (sp : ByteSpace) (i : Nat) (v : Byte) (rest : List HostEvent),
    s.inbox = .writeByte sp i v :: rest →
    (i < sp.limit → ∃ t, step s = .next t ∧ t.bitWidth = s.bitWidth ∧ t.response = s.response ∧ t.inbox = rest ∧
      t.draws = s.draws ∧ t.mem.labOut = s.mem.labOut ∧
      ∀ sp' k, (t.mem.bytes sp').read k = if sp' = sp ∧ k = i then v else (s.mem.bytes sp').read k) ∧
    (sp.limit ≤ i → step s = .fault (.noSuchElement i))) ∧
  (∀ (s : State) (i : Nat) (v : LabelWord) (rest : List HostEvent), s.inbox = .writeLabel i v :: rest →
    (i < 2 ^ 32 - 1 → ∃ t, step s = .next t ∧ t.bitWidth = s.bitWidth ∧ t.response = s.response ∧ t.inbox = rest ∧
      t.draws = s.draws ∧ (∀ sp, t.mem.bytes sp = s.mem.bytes sp) ∧
      ∀ k, t.mem.labOut.read k = if k = i then v else s.mem.labOut.read k) ∧
    (2 ^ 32 - 1 ≤ i → step s = .fault (.noSuchElement i)))

/-- The invariant (the model's own: entries 3, 13 and 18) holds after reset. -/
def Obligations.ResetMeetsTheInvariant : Prop := State.reset.Inv

/-- Every step keeps the invariant: spaces canonical and inside their bounds, the response one of the five words
(the canonical form and the bounds are the model's, entries 3, 13 and 18; the words are 30_encoding
R86's), from every state, whatever the free choices of a reset in flight. -/
def Obligations.EveryStepKeepsTheInvariant : Prop :=
  ∀ s t : State, s.Inv → step s = .next t → t.Inv

/-- 30_encoding R90, and the spec's own inference in 60_exceptions R220, "there is no hang to model", carried to the model's
own inbox and invariant: a host that keeps its duties is never stopped: any number of steps answers a next state, in which
the invariant and the duties still hold. What no rule says and the model adds: the invariant's canonical form (entry 3) and
bounds (entries 13 and 18), the inbox and the steps after its last event, which keep everything (entry 1). -/
def Obligations.DutifulHostIsNeverStopped : Prop :=
  ∀ (k : Nat) (s : State), s.Inv → s.hostDutiful = true →
    ∃ t, Host.Core.run core k s = .next t ∧ t.Inv ∧ t.hostDutiful = true

/-- The spec's own inference in 60_exceptions R220, "Every well-formed command terminates with a response", on the model's
inbox (entry 1): one step per event ends the run: after as many steps as there are events, from a host that
keeps its duties, nothing is left to take. -/
def Obligations.EveryRunEndsWithTheLastEvent : Prop :=
  ∀ s : State, s.hostDutiful = true → ∃ t, Host.Core.run core s.inbox.length s = .next t ∧ t.inbox = []

/-! ### Encodings -/

/-- 30_encoding R77, R80, R81: the decoder reads back every command the encoder writes, whatever its operands. -/
def Obligations.DecodeReadsBackEveryEncoding : Prop := ∀ i : Instr, decode (encode i) = .ok i

/-- 30_encoding R77, R80, R81: a descriptor that decodes is the encoding of the command it decodes to, so each command has
one descriptor. -/
def Obligations.EncodeReadsBackEveryDecoding : Prop :=
  ∀ (words : List Word) (i : Instr), decode words = .ok i → encode i = words

/-- 30_encoding R90, R91: the decoder accepts exactly the descriptors that match a row of the opcode table and have its
length; the rows are written from the table's match and mask. -/
def Obligations.DecodeAcceptsExactlyTheWellFormed : Prop :=
  ∀ words : List Word, (∃ i, decode words = .ok i) ↔ wellFormedDescriptor words = true

/-- 30_encoding R91: no first word matches two rows of the opcode table. -/
def Obligations.OpcodeRowsNeverOverlap : Prop :=
  ∀ w0 : Word, opcodeRows.Pairwise fun a b => ¬ (a.selects w0 = true ∧ b.selects w0 = true)

/-- 30_encoding R84: every reserved encoding is refused, under every conduct and in every state. -/
def Obligations.ReservedEncodingsAreRefused : Prop :=
  ∀ (s : State) (w0 : Word) (more : List Word) (conduct : Conduct) (rest : List HostEvent),
    s.inbox = .command (w0 :: more) conduct :: rest →
    (w0.extractLsb' 30 2 = 0#2 ∨ (w0.extractLsb' 30 2 = 1#2 ∧ w0.extractLsb' 4 26 ≠ 0#26) ∨
      (w0.extractLsb' 30 2 = 2#2 ∧ w0.extractLsb' 8 14 ≠ 0#14) ∨
      (w0.extractLsb' 30 2 = 3#2 ∧ w0.extractLsb' 8 20 ≠ 0#20)) →
    ∃ reason, step s = .refused (.notACommand reason)

/-- 30_encoding R78: the first word's `op` alone gives the length, 1, 3 or 2 words, and a descriptor that decodes has
it. -/
def Obligations.LengthComesFromTheOpAlone : Prop :=
  ∀ (w0 : Word) (more : List Word) (i : Instr), decode (w0 :: more) = .ok i →
    (w0.extractLsb' 30 2 = 1#2 ∧ more.length = 0 ∧ ∃ n, i = .cfg n) ∨
    (w0.extractLsb' 30 2 = 2#2 ∧ more.length = 2 ∧ ∃ ie le ir lr c ih iw lh lw, i = .enc ie le ir lr c ih iw lh lw) ∨
    (w0.extractLsb' 30 2 = 3#2 ∧ more.length = 1 ∧ ∃ st f ns, i = .dec st f ns)

/-- 30_encoding R88: the three example commands and their descriptors, both ways. -/
def Obligations.TheSpecsExampleDescriptorsDecode : Prop :=
  decode [0x40000002#32] = .ok (.cfg 2#4) ∧
  decode [0x83800003#32, 0x00010001#32, 0x00010001#32] = .ok (.enc 0#2 0#2 3#2 2#2 3#8 1#16 1#16 1#16 1#16) ∧
  decode [0xC0000006#32, 0x00000001#32] = .ok (.dec 0#2 6#8 1#32) ∧
  encode (.cfg 2#4) = [0x40000002#32] ∧
  encode (.enc 0#2 0#2 3#2 2#2 3#8 1#16 1#16 1#16 1#16) = [0x83800003#32, 0x00010001#32, 0x00010001#32] ∧
  encode (.dec 0#2 6#8 1#32) = [0xC0000006#32, 0x00000001#32]

/-! ### Errors and responses -/

/-- 30_encoding R90, R86: every command, with every operand, on every state, completes with one response word, which is
zero above bit 2 and holds one of the five codes. -/
def Obligations.EveryCommandReturnsOneResponse : Prop :=
  ∀ (i : Instr) (s : State), ∃ t w, exec i s = .next t ∧ t.response = some w ∧ w.extractLsb' 3 29 = 0#29 ∧
    w.toNat ≤ 4

/-- 60_exceptions R196 over the conditions of R191 to R194 (`raisedWhen`): a command reports the first failing check in
the order Configuration, Type, Shape, Range, and nothing else changes; when no condition holds, it returns OK. -/
def Obligations.TheFirstFailingCheckIsReported : Prop :=
  ∀ (i : Instr) (s : State),
    (∀ k : ErrorKind, raisedWhen k i s → (∀ k' : ErrorKind, k'.rank < k.rank → ¬ raisedWhen k' i s) →
      exec i s = .next { s with response := some (Status.word (.error k)) }) ∧
    ((∀ k : ErrorKind, ¬ raisedWhen k i s) → ∃ t, exec i s = .next t ∧ t.response = some (Status.word .ok))

/-- 60_exceptions R200, R201: after a command whose response is an error, everything but the response equals what it was
before it. -/
def Obligations.FailedCommandChangesNothing : Prop :=
  ∀ (i : Instr) (s t : State) (k : ErrorKind), exec i s = .next t → t.response = some (Status.word (.error k)) →
    t = { s with response := some (Status.word (.error k)) }

/-- The spec's own inference in 60_exceptions R195, "Which command can return which status": which command can return which status: nothing outside the table (RangeError from `ENC` at
`N` = 1, 2 only), and everything in it. -/
def Obligations.StatusesAreThoseOfTheTable : Prop :=
  (∀ (i : Instr) (s t : State) (st : Status), exec i s = .next t → t.response = some st.word →
    (∀ n, i = .cfg n → st = .ok ∨ st = .error .configurationError) ∧
    (∀ ie le ir lr c ih iw lh lw, i = .enc ie le ir lr c ih iw lh lw → st = .error .rangeError →
      s.bitWidth = 1#4 ∨ s.bitWidth = 2#4) ∧
    (∀ tag f ns, i = .dec tag f ns → st ≠ .error .rangeError)) ∧
  (∀ st : Status, (st = .ok ∨ st = .error .configurationError) →
    ∃ n s t, exec (.cfg n) s = .next t ∧ t.response = some st.word) ∧
  (∀ st : Status, ∃ ie le ir lr c ih iw lh lw s t,
    exec (.enc ie le ir lr c ih iw lh lw) s = .next t ∧ t.response = some st.word) ∧
  (∀ st : Status, st ≠ .error .rangeError →
    ∃ tag f ns s t, exec (.dec tag f ns) s = .next t ∧ t.response = some st.word)

/-- 10_state R26: the outcome is not latched: a command does the same whatever response the one before it left. -/
def Obligations.EarlierOutcomesDoNotMatter : Prop :=
  ∀ (i : Instr) (s : State) (r : Option Word), exec i { s with response := r } = exec i s

/-- 20_memory R53: repeating a successful `ENC` or `DEC` on what it left changes nothing more. -/
def Obligations.RepeatingACommandChangesNothing : Prop :=
  ∀ (i : Instr) (s t : State), (∀ n, i ≠ .cfg n) → exec i s = .next t → exec i t = .next t

/-- 20_memory R58: an `ENC` and a `DEC` give the same spaces and the same bit width in either order. -/
def Obligations.EncAndDecCommute : Prop :=
  ∀ (s : State) (ie le ir lr : BitVec 2) (c : BitVec 8) (ih iw lh lw : BitVec 16) (tag : BitVec 2) (f : BitVec 8)
    (ns : BitVec 32), ∃ a ab b ba,
    exec (.enc ie le ir lr c ih iw lh lw) s = .next a ∧ exec (.dec tag f ns) a = .next ab ∧
    exec (.dec tag f ns) s = .next b ∧ exec (.enc ie le ir lr c ih iw lh lw) b = .next ba ∧
    ab.mem = ba.mem ∧ ab.bitWidth = ba.bitWidth ∧ ab.response = b.response ∧ ba.response = a.response

/-! ### CFG -/

/-- 41_configuration R122: on an unconfigured codec every `n` from 1 to 15 is accepted, and nothing but the bit width and
the response changes. -/
def Obligations.CfgSetsTheBitWidthOnce : Prop :=
  ∀ (s : State) (n : BitVec 4), s.bitWidth = 0#4 → n ≠ 0#4 →
    exec (.cfg n) s = .next { s with bitWidth := n, response := some 0#32 }

/-- 41_configuration R123: on a configured codec `CFG` fails with ConfigurationError and the bit width keeps its value,
whatever `n` is. -/
def Obligations.CfgOnAConfiguredCodecFails : Prop :=
  ∀ (s : State) (n : BitVec 4), s.bitWidth ≠ 0#4 → exec (.cfg n) s = .next { s with response := some 1#32 }

/-- 41_configuration R121: a bit width that is not positive is rejected with ConfigurationError. -/
def Obligations.CfgRejectsZero : Prop :=
  ∀ s : State, exec (.cfg 0#4) s = .next { s with response := some 1#32 }

/-- 10_state R22: CLASSBITS is `3*N` in 6 bits, without truncation, and 0 after reset. -/
def Obligations.ClassBitsIsThreeTimesTheBitWidth : Prop :=
  (∀ s : State, s.classBits.toNat = 3 * s.bitWidth.toNat) ∧ State.reset.classBits = 0#6

/-! ### ENC -/

/-- 42_encode R136, with R130 (completion), R135 (output shape) and R138 (no side effects): on a configured codec with
well-shaped 8-bit buffers and every label in range, `ENC` returns OK, every element of `IMG_OUT`'s shape takes the value
of the three formulas, every other element of `IMG_OUT` and everything else but the response is unchanged. -/
def Obligations.EncPacksEveryLabel : Prop :=
  ∀ (s : State) (h w : BitVec 16), s.bitWidth ≠ 0#4 → LabelsBelow s.n h.toNat w.toNat s.mem.labIn →
    ∃ t, exec (.enc 0#2 0#2 3#2 2#2 3#8 h w h w) s = .next t ∧ t.response = some 0#32 ∧
      t.bitWidth = s.bitWidth ∧ t.inbox = s.inbox ∧ t.draws = s.draws ∧
      t.mem.imgIn = s.mem.imgIn ∧ t.mem.labIn = s.mem.labIn ∧ t.mem.smpIn = s.mem.smpIn ∧
      t.mem.labOut = s.mem.labOut ∧
      (∀ y x, y < h.toNat → x < w.toNat →
        (t.mem.imgOut.read (imgIndex h.toNat w.toNat 0 y x)).toNat =
          (s.mem.imgIn.read (imgIndex h.toNat w.toNat 0 y x)).toNat / 2 ^ s.n * 2 ^ s.n +
            (s.mem.labIn.read (labIndex w.toNat y x)).toNat % 2 ^ s.n ∧
        (t.mem.imgOut.read (imgIndex h.toNat w.toNat 1 y x)).toNat =
          (s.mem.imgIn.read (imgIndex h.toNat w.toNat 1 y x)).toNat / 2 ^ s.n * 2 ^ s.n +
            (s.mem.labIn.read (labIndex w.toNat y x)).toNat / 2 ^ s.n % 2 ^ s.n ∧
        (t.mem.imgOut.read (imgIndex h.toNat w.toNat 2 y x)).toNat =
          (s.mem.imgIn.read (imgIndex h.toNat w.toNat 2 y x)).toNat / 2 ^ s.n * 2 ^ s.n +
            (s.mem.labIn.read (labIndex w.toNat y x)).toNat / 2 ^ (2 * s.n) % 2 ^ s.n) ∧
      ∀ k, (∀ c y x, c < 3 → y < h.toNat → x < w.toNat → k ≠ imgIndex h.toNat w.toNat c y x) →
        t.mem.imgOut.read k = s.mem.imgOut.read k

/-- 42_encode R131, R132, R133: the error of each failing check of `ENC`, given that the checks before it pass; nothing
but the response changes. -/
def Obligations.EncReportsEachFailingCheck : Prop :=
  ∀ (s : State) (ie le ir lr : BitVec 2) (c : BitVec 8) (ih iw lh lw : BitVec 16),
    (s.bitWidth = 0#4 →
      exec (.enc ie le ir lr c ih iw lh lw) s = .next { s with response := some 1#32 }) ∧
    (s.bitWidth ≠ 0#4 → (ie ≠ 0#2 ∨ le ≠ 0#2) →
      exec (.enc ie le ir lr c ih iw lh lw) s = .next { s with response := some 4#32 }) ∧
    (s.bitWidth ≠ 0#4 → ie = 0#2 → le = 0#2 → (ir ≠ 3#2 ∨ c ≠ 3#8 ∨ lr ≠ 2#2 ∨ ih ≠ lh ∨ iw ≠ lw) →
      exec (.enc ie le ir lr c ih iw lh lw) s = .next { s with response := some 2#32 }) ∧
    (s.bitWidth ≠ 0#4 → ie = 0#2 → le = 0#2 → ir = 3#2 → c = 3#8 → lr = 2#2 → ih = lh → iw = lw →
      (∃ y x, y < lh.toNat ∧ x < lw.toNat ∧ 2 ^ (3 * s.n) ≤ (s.mem.labIn.read (labIndex lw.toNat y x)).toNat) →
      exec (.enc ie le ir lr c ih iw lh lw) s = .next { s with response := some 3#32 })

/-- The spec's own inference in 42_encode R134, "For `N = 1` the labels 8 to 255 fail; for `N = 2` the labels 64 to 255
fail; for `N >= 3` ... `ENC` never returns RangeError": with types and shapes good, RangeError comes back exactly then. -/
def Obligations.RangeErrorOnlyAtNarrowWidths : Prop :=
  ∀ (s t : State) (h w : BitVec 16), s.bitWidth ≠ 0#4 → exec (.enc 0#2 0#2 3#2 2#2 3#8 h w h w) s = .next t →
    (t.response = some 3#32 ↔
      ∃ y x, y < h.toNat ∧ x < w.toNat ∧
        ((s.bitWidth = 1#4 ∧ 8 ≤ (s.mem.labIn.read (labIndex w.toNat y x)).toNat) ∨
         (s.bitWidth = 2#4 ∧ 64 ≤ (s.mem.labIn.read (labIndex w.toNat y x)).toNat)))

/-- 42_encode R137, 44_contract R172: the high part of every channel of the image is kept and the low part is the label's field. -/
def Obligations.EncKeepsHighBitsAndReplacesLowBits : Prop :=
  ∀ (s t : State) (h w : BitVec 16), exec (.enc 0#2 0#2 3#2 2#2 3#8 h w h w) s = .next t → t.response = some 0#32 →
    ∀ c y x, c < 3 → y < h.toNat → x < w.toNat →
      (t.mem.imgOut.read (imgIndex h.toNat w.toNat c y x)).toNat / 2 ^ s.n =
        (s.mem.imgIn.read (imgIndex h.toNat w.toNat c y x)).toNat / 2 ^ s.n ∧
      (t.mem.imgOut.read (imgIndex h.toNat w.toNat c y x)).toNat % 2 ^ s.n =
        field s.n (s.mem.labIn.read (labIndex w.toNat y x)).toNat c

/-- 42_encode R140: `ENC` with a zero extent is legal: OK, nothing written. -/
def Obligations.EncOfAnEmptyImageWritesNothing : Prop :=
  ∀ (s : State) (h w : BitVec 16), s.bitWidth ≠ 0#4 → (h = 0#16 ∨ w = 0#16) →
    exec (.enc 0#2 0#2 3#2 2#2 3#8 h w h w) s = .next { s with response := some 0#32 }

/-- 44_contract R177: label 0 leaves all low bits 0; the maximum label, at `N` = 1 and 2, leaves them all 1. -/
def Obligations.BoundaryLabelsClearOrSetTheLowBits : Prop :=
  ∀ (s t : State) (h w : BitVec 16), exec (.enc 0#2 0#2 3#2 2#2 3#8 h w h w) s = .next t → t.response = some 0#32 →
    ∀ c y x, c < 3 → y < h.toNat → x < w.toNat →
      ((s.mem.labIn.read (labIndex w.toNat y x)).toNat = 0 →
        (t.mem.imgOut.read (imgIndex h.toNat w.toNat c y x)).toNat % 2 ^ s.n = 0) ∧
      ((s.bitWidth = 1#4 ∨ s.bitWidth = 2#4) → (s.mem.labIn.read (labIndex w.toNat y x)).toNat = 2 ^ (3 * s.n) - 1 →
        (t.mem.imgOut.read (imgIndex h.toNat w.toNat c y x)).toNat % 2 ^ s.n = 2 ^ s.n - 1)

/-- The spec's own inference in 44_contract R180, "For every channel value, `|enc - orig| <= 2^n - 1` when `n <= 8`". -/
def Obligations.EncDistortionIsBounded : Prop :=
  ∀ (s t : State) (h w : BitVec 16), exec (.enc 0#2 0#2 3#2 2#2 3#8 h w h w) s = .next t → t.response = some 0#32 → s.n ≤ 8 →
    ∀ c y x, c < 3 → y < h.toNat → x < w.toNat →
      (t.mem.imgOut.read (imgIndex h.toNat w.toNat c y x)).toNat ≤
        (s.mem.imgIn.read (imgIndex h.toNat w.toNat c y x)).toNat + (2 ^ s.n - 1) ∧
      (s.mem.imgIn.read (imgIndex h.toNat w.toNat c y x)).toNat ≤
        (t.mem.imgOut.read (imgIndex h.toNat w.toNat c y x)).toNat + (2 ^ s.n - 1)

/-- The spec's own inference in 44_contract R178, "Encoding erases whatever the low bits held, including an earlier label":
encoding L2 into an image already encoded with L1 gives what encoding L2 into the original gives:
`u` holds the encoded image and L2, `v` the original and L2. -/
def Obligations.EncOverwritesAnEarlierLabel : Prop :=
  ∀ (s t u v u' v' : State) (h w : BitVec 16),
    exec (.enc 0#2 0#2 3#2 2#2 3#8 h w h w) s = .next t → t.response = some 0#32 →
    u.bitWidth = s.bitWidth → v.bitWidth = s.bitWidth →
    AgreeBelow (3 * h.toNat * w.toNat) u.mem.imgIn t.mem.imgOut →
    AgreeBelow (3 * h.toNat * w.toNat) v.mem.imgIn s.mem.imgIn →
    AgreeBelow (h.toNat * w.toNat) u.mem.labIn v.mem.labIn →
    exec (.enc 0#2 0#2 3#2 2#2 3#8 h w h w) u = .next u' → exec (.enc 0#2 0#2 3#2 2#2 3#8 h w h w) v = .next v' →
    u'.response = v'.response ∧
    (u'.response = some 0#32 → AgreeBelow (3 * h.toNat * w.toNat) u'.mem.imgOut v'.mem.imgOut)

/-- 20_memory R43, 44_contract R175: `ENC`'s response, and the elements it writes, are a function of the bit width, the
descriptor and the elements inside the declared shape, and of nothing else. -/
def Obligations.EncDependsOnItsInputsAlone : Prop :=
  ∀ (s s' t t' : State) (ie le ir lr : BitVec 2) (c : BitVec 8) (ih iw lh lw : BitVec 16),
    s.bitWidth = s'.bitWidth → AgreeBelow (3 * ih.toNat * iw.toNat) s.mem.imgIn s'.mem.imgIn →
    AgreeBelow (lh.toNat * lw.toNat) s.mem.labIn s'.mem.labIn →
    exec (.enc ie le ir lr c ih iw lh lw) s = .next t → exec (.enc ie le ir lr c ih iw lh lw) s' = .next t' →
    t.response = t'.response ∧
    (t.response = some 0#32 → AgreeBelow (3 * ih.toNat * iw.toNat) t.mem.imgOut t'.mem.imgOut)

/-- 42_encode R130, and the spec's own inference in 20_memory R55, "no result depends on the order": writing the whole block at once is the pseudocode's loop of single-element writes, as
data, on a space in canonical form. -/
def Obligations.EncIsThePseudocodesLoop : Prop :=
  ∀ (s t : State) (h w : BitVec 16), s.mem.imgOut.wf → exec (.enc 0#2 0#2 3#2 2#2 3#8 h w h w) s = .next t →
    t.response = some 0#32 →
    t.mem.imgOut = encLoop s.n s.mem.imgIn s.mem.labIn h.toNat w.toNat s.mem.imgOut

/-! ### DEC -/

/-- 43_decode R153, with R150 (completion), R154 (what is read) and R157 (no side effects): on a configured codec `DEC`
of 6-field 8-bit records returns OK, every `LAB_OUT` element of the shape takes the value of the formula, in full; every
other element and everything else but the response is unchanged. -/
def Obligations.DecJoinsTheLowBits : Prop :=
  ∀ (s : State) (ns : BitVec 32), s.bitWidth ≠ 0#4 →
    ∃ t, exec (.dec 0#2 6#8 ns) s = .next t ∧ t.response = some 0#32 ∧ t.bitWidth = s.bitWidth ∧ t.inbox = s.inbox ∧
      t.draws = s.draws ∧ t.mem.imgIn = s.mem.imgIn ∧ t.mem.labIn = s.mem.labIn ∧ t.mem.imgOut = s.mem.imgOut ∧
      t.mem.smpIn = s.mem.smpIn ∧
      (∀ i, i < ns.toNat → (t.mem.labOut.read i).toNat =
        (s.mem.smpIn.read (6 * i + 5)).toNat % 2 ^ s.n * 2 ^ (2 * s.n) +
          (s.mem.smpIn.read (6 * i + 4)).toNat % 2 ^ s.n * 2 ^ s.n + (s.mem.smpIn.read (6 * i + 3)).toNat % 2 ^ s.n) ∧
      ∀ i, ns.toNat ≤ i → t.mem.labOut.read i = s.mem.labOut.read i

/-- 43_decode R151, R152: the error of each failing check of `DEC`, also with no records; nothing but the response
changes. -/
def Obligations.DecReportsEachFailingCheck : Prop :=
  ∀ (s : State) (tag : BitVec 2) (f : BitVec 8) (ns : BitVec 32),
    (s.bitWidth = 0#4 → exec (.dec tag f ns) s = .next { s with response := some 1#32 }) ∧
    (s.bitWidth ≠ 0#4 → tag ≠ 0#2 → exec (.dec tag f ns) s = .next { s with response := some 4#32 }) ∧
    (s.bitWidth ≠ 0#4 → tag = 0#2 → f ≠ 6#8 → exec (.dec tag f ns) s = .next { s with response := some 2#32 })

/-- 43_decode R154: any two records, record i of one sequence and record j of the same or another, whose r, g, b agree in
their low `N` bits give the same label, whatever their places, their other fields, the high bits, the other records and the
numbers of records. -/
def Obligations.DecDependsOnTheLowBitsAlone : Prop :=
  ∀ (s s' t t' : State) (ns ns' : BitVec 32) (i j : Nat), s.bitWidth = s'.bitWidth →
    exec (.dec 0#2 6#8 ns) s = .next t → exec (.dec 0#2 6#8 ns') s' = .next t' → t.response = some 0#32 →
    i < ns.toNat → j < ns'.toNat →
    (∀ f, f = 3 ∨ f = 4 ∨ f = 5 →
      (s.mem.smpIn.read (smpIndex i f)).toNat % 2 ^ s.n = (s'.mem.smpIn.read (smpIndex j f)).toNat % 2 ^ s.n) →
    t.mem.labOut.read i = t'.mem.labOut.read j

/-- 43_decode R156: every label is below `2^(2N + min(N, 8))`, which is `2^CLASSBITS` for `N` at most 8; at `N` = 1 and 2
it fits 8 bits. -/
def Obligations.DecodedLabelsAreBounded : Prop :=
  ∀ (s t : State) (ns : BitVec 32) (i : Nat), exec (.dec 0#2 6#8 ns) s = .next t → t.response = some 0#32 →
    i < ns.toNat →
    (t.mem.labOut.read i).toNat < 2 ^ (2 * s.n + min s.n 8) ∧
    (s.n ≤ 8 → (t.mem.labOut.read i).toNat < 2 ^ s.classBits.toNat) ∧
    (s.n ≤ 2 → (t.mem.labOut.read i).toNat ≤ 63)

/-- 43_decode R159: `DEC` of zero records is legal: OK, nothing written. -/
def Obligations.DecOfNoRecordsWritesNothing : Prop :=
  ∀ s : State, s.bitWidth ≠ 0#4 → exec (.dec 0#2 6#8 0#32) s = .next { s with response := some 0#32 }

/-- 43_decode R150, and the spec's own inference in 20_memory R55, "no result depends on the order": writing the whole block at once is the pseudocode's loop of single-element writes, as
data, on a space in canonical form. -/
def Obligations.DecIsThePseudocodesLoop : Prop :=
  ∀ (s t : State) (ns : BitVec 32), s.mem.labOut.wf → exec (.dec 0#2 6#8 ns) s = .next t → t.response = some 0#32 →
    t.mem.labOut = decLoop s.n s.mem.smpIn ns.toNat s.mem.labOut

/-! ### ENC and DEC together -/

/-- 20_memory R65: `flatten` makes records that carry the image's pixels, whatever it puts in x, y, z, and puts there
what it is given. -/
def Obligations.FlattenCarriesThePixels : Prop :=
  ∀ (h w : Nat) (img smp : Space 8) (xyz : List (Byte × Byte × Byte)),
    CarriesPixels h w img (flatten h w img xyz smp) ∧
    ∀ i, i < h * w → i < xyz.length → ∃ x y z, xyz[i]? = some (x, y, z) ∧
      (flatten h w img xyz smp).read (smpIndex i 0) = x ∧ (flatten h w img xyz smp).read (smpIndex i 1) = y ∧
      (flatten h w img xyz smp).read (smpIndex i 2) = z

/-- 44_contract R170 at `N` = 1 and 2, the widths the source vouches for, and, from 3 to 15, the spec's own inference in
R171, "From the rules it holds for every `n >= 1`": labels in range, encoded into any image and decoded from records that
carry the encoded pixels by a codec of the same bit width, come back exactly, in row-major order. -/
def Obligations.DecodingTheEncodedImageRecoversTheLabels : Prop :=
  ∀ (s : State) (h w : BitVec 16), s.bitWidth ≠ 0#4 → LabelsBelow s.n h.toNat w.toNat s.mem.labIn →
    ∃ t, exec (.enc 0#2 0#2 3#2 2#2 3#8 h w h w) s = .next t ∧ t.response = some 0#32 ∧
      ∀ u : State, u.bitWidth = s.bitWidth → CarriesPixels h.toNat w.toNat t.mem.imgOut u.mem.smpIn →
        ∃ v, exec (.dec 0#2 6#8 (BitVec.ofNat 32 (h.toNat * w.toNat))) u = .next v ∧ v.response = some 0#32 ∧
          ∀ y x, y < h.toNat → x < w.toNat →
            (v.mem.labOut.read (labIndex w.toNat y x)).toNat = (s.mem.labIn.read (labIndex w.toNat y x)).toNat

/-- The spec's own inference in 44_contract R179, "`ENC` accepts it, and `enc_n(I, L) = I`": at `N` = 1 and 2, the labels decoded from an image's own pixels are in range, and encoding them into
that image gives it back. -/
def Obligations.ReencodingTheDecodedLabelsKeepsTheImage : Prop :=
  ∀ (s t u : State) (h w : BitVec 16), s.bitWidth = 1#4 ∨ s.bitWidth = 2#4 →
    CarriesPixels h.toNat w.toNat s.mem.imgIn s.mem.smpIn →
    exec (.dec 0#2 6#8 (BitVec.ofNat 32 (h.toNat * w.toNat))) s = .next t →
    u.bitWidth = s.bitWidth → AgreeBelow (3 * h.toNat * w.toNat) u.mem.imgIn s.mem.imgIn →
    (∀ k, k < h.toNat * w.toNat → (u.mem.labIn.read k).toNat = (t.mem.labOut.read k).toNat) →
    ∃ v, exec (.enc 0#2 0#2 3#2 2#2 3#8 h w h w) u = .next v ∧ v.response = some 0#32 ∧
      AgreeBelow (3 * h.toNat * w.toNat) v.mem.imgOut s.mem.imgIn

/-! ### The bit-partition helpers -/

/-- The spec's own inference in 40_helpers R111 ("Inverse laws, for every `n >= 1`"): the seven inverse laws, for every bit width from 1. -/
def Obligations.PackingAndExtractingAreInverse : Prop :=
  ∀ n, 1 ≤ n →
    (∀ v f, v ≤ 255 → f < 2 ^ n → f ≤ 255 → extract n (packChannel n v f) = f) ∧
    (∀ v f, v ≤ 255 → f < 2 ^ n → f ≤ 255 → packChannel n v f / 2 ^ n = v / 2 ^ n) ∧
    (∀ label, join n (field n label 0) (field n label 1) (field n label 2) = label % 2 ^ (3 * n)) ∧
    (∀ fr fg fb, fr < 2 ^ n → fg < 2 ^ n → fb < 2 ^ n →
      field n (join n fr fg fb) 0 = fr ∧ field n (join n fr fg fb) 1 = fg ∧ field n (join n fr fg fb) 2 = fb) ∧
    (∀ r g b label : Nat, r ≤ 255 → g ≤ 255 → b ≤ 255 → inRange n label = true → label ≤ 255 →
      unpackSample n (packPixel n r g b label).1 (packPixel n r g b label).2.1 (packPixel n r g b label).2.2 = label) ∧
    (∀ v f1 f2, v ≤ 255 → f1 < 2 ^ n → f1 ≤ 255 → f2 < 2 ^ n → f2 ≤ 255 →
      packChannel n (packChannel n v f1) f2 = packChannel n v f2) ∧
    (∀ v, v ≤ 255 → packChannel n v (extract n v) = v)

/-- 40_helpers R101, R104, R105: on 8 bits the arithmetic forms are the mask forms. -/
def Obligations.MaskFormsAgreeWithDivAndMod : Prop :=
  ∀ n v, 1 ≤ n → v ≤ 255 →
    (n ≤ 8 → mask8 n = mask n) ∧ (8 ≤ n → mask8 n = 255) ∧
    v &&& mask8 n = extract n v ∧ v &&& complement8 (mask8 n) = v / 2 ^ n * 2 ^ n ∧
    ∀ f, f < 2 ^ n → f ≤ 255 → packChannelMasked n v f = packChannel n v f

/-- 40_helpers R102, R103: the fields are those of the successive divisions, each below `2^n`, and the label is in range
exactly when nothing is left; a negative label never is. Label 0 has zero fields, the maximum label fields of ones. -/
def Obligations.FieldsAreSuccessiveRemainders : Prop :=
  ∀ n label, 1 ≤ n →
    field n label 0 = label % 2 ^ n ∧ field n label 1 = label / 2 ^ n % 2 ^ n ∧
    field n label 2 = label / 2 ^ n / 2 ^ n % 2 ^ n ∧
    (∀ c, c < 3 → field n label c < 2 ^ n ∧ (label ≤ 255 → field n label c ≤ 255 / 2 ^ (c * n))) ∧
    (∀ c, c < 3 → field n 0 c = 0 ∧ field n (2 ^ (3 * n) - 1) c = 2 ^ n - 1) ∧
    (inRange n label = true ↔ label / 2 ^ n / 2 ^ n / 2 ^ n = 0) ∧
    ∀ z : Int, z < 0 → inRange n z = false

/-- The spec's own inference in 40_helpers R110, "No result overflows its destination": a packed channel fits 8 bits for every bit width, and an unpacked label fits
`2n + min(n, 8)` bits, at most 38 for n at most 15. -/
def Obligations.NoResultOverflows : Prop :=
  ∀ n, 1 ≤ n →
    (∀ v f, v ≤ 255 → f < 2 ^ n → f ≤ 255 → packChannel n v f ≤ 255) ∧
    (∀ r g b, r ≤ 255 → g ≤ 255 → b ≤ 255 → unpackSample n r g b < 2 ^ (2 * n + min n 8) ∧
      unpackSample n r g b < 2 ^ (3 * n) ∧ (n ≤ 15 → unpackSample n r g b < 2 ^ 38))

/-- 40_helpers R108: the label of a sample, its range, that for n at most 8 every label below `2^(3n)` is reached, and that
for larger n the bits [n-1:8] and [2n-1:n+8] are zero. -/
def Obligations.SamplesCarryEveryLabelInRange : Prop :=
  ∀ n, 1 ≤ n →
    (∀ r g b, r ≤ 255 → g ≤ 255 → b ≤ 255 →
      unpackSample n r g b = b % 2 ^ n * 2 ^ (2 * n) + g % 2 ^ n * 2 ^ n + r % 2 ^ n ∧
      unpackSample n r g b < 2 ^ (2 * n + min n 8) ∧ 2 ^ (2 * n + min n 8) ≤ 2 ^ (3 * n) ∧
      (8 < n → unpackSample n r g b / 2 ^ 8 % 2 ^ (n - 8) = 0 ∧
        unpackSample n r g b / 2 ^ (n + 8) % 2 ^ (n - 8) = 0)) ∧
    (n ≤ 8 → ∀ label, label < 2 ^ (3 * n) →
      ∃ r g b, r ≤ 255 ∧ g ≤ 255 ∧ b ≤ 255 ∧ unpackSample n r g b = label)

/-- The spec's own inference in 40_helpers R109 ("Behaviour for `n >= 8` and for `3 <= n <= 7`"): at bit widths 8 and above the encoded pixel is (L, 0, 0) and a byte is its own low part; from 4 to 7
the B-field is 0. -/
def Obligations.WideBitWidthsReplaceWholeBytes : Prop :=
  ∀ n label, label ≤ 255 →
    (8 ≤ n → ∀ r g b, r ≤ 255 → g ≤ 255 → b ≤ 255 → packPixel n r g b label = (label, 0, 0) ∧ extract n r = r ∧
      unpackSample n r g b = b * 2 ^ (2 * n) + g * 2 ^ n + r) ∧
    (3 ≤ n → inRange n label = true) ∧
    (4 ≤ n → n ≤ 7 → field n label 1 = label / 2 ^ n ∧ field n label 2 = 0) ∧
    (n = 3 → field n label 1 = label / 8 % 8 ∧ field n label 2 = label / 64)
end

