-- ==== Sys2Proof/Laws/State.lean ====
section
/-! SUPPORT. One lemma per field of State for each update of State, true by rfl, so that no later proof unfolds a record
update; and the small lemmas of Memory's accessors. -/

namespace Sys2Proof.Machine

/-! ### setBitWidth -/

@[simp] theorem State.setBitWidth_bitWidth (s : State) (n : BitVec 4) :
    (s.setBitWidth n).bitWidth = n := rfl
@[simp] theorem State.setBitWidth_mem (s : State) (n : BitVec 4) :
    (s.setBitWidth n).mem = s.mem := rfl
@[simp] theorem State.setBitWidth_response (s : State) (n : BitVec 4) :
    (s.setBitWidth n).response = s.response := rfl
@[simp] theorem State.setBitWidth_inbox (s : State) (n : BitVec 4) :
    (s.setBitWidth n).inbox = s.inbox := rfl
@[simp] theorem State.setBitWidth_draws (s : State) (n : BitVec 4) :
    (s.setBitWidth n).draws = s.draws := rfl

/-! ### setImgOut -/

@[simp] theorem State.setImgOut_bitWidth (s : State) (m : Space 8) :
    (s.setImgOut m).bitWidth = s.bitWidth := rfl
@[simp] theorem State.setImgOut_mem_imgIn (s : State) (m : Space 8) :
    (s.setImgOut m).mem.imgIn = s.mem.imgIn := rfl
@[simp] theorem State.setImgOut_mem_labIn (s : State) (m : Space 8) :
    (s.setImgOut m).mem.labIn = s.mem.labIn := rfl
@[simp] theorem State.setImgOut_mem_imgOut (s : State) (m : Space 8) :
    (s.setImgOut m).mem.imgOut = m := rfl
@[simp] theorem State.setImgOut_mem_smpIn (s : State) (m : Space 8) :
    (s.setImgOut m).mem.smpIn = s.mem.smpIn := rfl
@[simp] theorem State.setImgOut_mem_labOut (s : State) (m : Space 8) :
    (s.setImgOut m).mem.labOut = s.mem.labOut := rfl
@[simp] theorem State.setImgOut_response (s : State) (m : Space 8) :
    (s.setImgOut m).response = s.response := rfl
@[simp] theorem State.setImgOut_inbox (s : State) (m : Space 8) :
    (s.setImgOut m).inbox = s.inbox := rfl
@[simp] theorem State.setImgOut_draws (s : State) (m : Space 8) :
    (s.setImgOut m).draws = s.draws := rfl

/-! ### setLabOut -/

@[simp] theorem State.setLabOut_bitWidth (s : State) (m : Space 38) :
    (s.setLabOut m).bitWidth = s.bitWidth := rfl
@[simp] theorem State.setLabOut_mem_imgIn (s : State) (m : Space 38) :
    (s.setLabOut m).mem.imgIn = s.mem.imgIn := rfl
@[simp] theorem State.setLabOut_mem_labIn (s : State) (m : Space 38) :
    (s.setLabOut m).mem.labIn = s.mem.labIn := rfl
@[simp] theorem State.setLabOut_mem_imgOut (s : State) (m : Space 38) :
    (s.setLabOut m).mem.imgOut = s.mem.imgOut := rfl
@[simp] theorem State.setLabOut_mem_smpIn (s : State) (m : Space 38) :
    (s.setLabOut m).mem.smpIn = s.mem.smpIn := rfl
@[simp] theorem State.setLabOut_mem_labOut (s : State) (m : Space 38) :
    (s.setLabOut m).mem.labOut = m := rfl
@[simp] theorem State.setLabOut_response (s : State) (m : Space 38) :
    (s.setLabOut m).response = s.response := rfl
@[simp] theorem State.setLabOut_inbox (s : State) (m : Space 38) :
    (s.setLabOut m).inbox = s.inbox := rfl
@[simp] theorem State.setLabOut_draws (s : State) (m : Space 38) :
    (s.setLabOut m).draws = s.draws := rfl

/-! ### setBytes -/

@[simp] theorem State.setBytes_bitWidth (s : State) (sp : ByteSpace) (m : Space 8) :
    (s.setBytes sp m).bitWidth = s.bitWidth := rfl
@[simp] theorem State.setBytes_mem (s : State) (sp : ByteSpace) (m : Space 8) :
    (s.setBytes sp m).mem = s.mem.setBytes sp m := rfl
@[simp] theorem State.setBytes_response (s : State) (sp : ByteSpace) (m : Space 8) :
    (s.setBytes sp m).response = s.response := rfl
@[simp] theorem State.setBytes_inbox (s : State) (sp : ByteSpace) (m : Space 8) :
    (s.setBytes sp m).inbox = s.inbox := rfl
@[simp] theorem State.setBytes_draws (s : State) (sp : ByteSpace) (m : Space 8) :
    (s.setBytes sp m).draws = s.draws := rfl

/-! ### setInbox -/

@[simp] theorem State.setInbox_bitWidth (s : State) (evs : List HostEvent) :
    (s.setInbox evs).bitWidth = s.bitWidth := rfl
@[simp] theorem State.setInbox_mem (s : State) (evs : List HostEvent) :
    (s.setInbox evs).mem = s.mem := rfl
@[simp] theorem State.setInbox_response (s : State) (evs : List HostEvent) :
    (s.setInbox evs).response = s.response := rfl
@[simp] theorem State.setInbox_inbox (s : State) (evs : List HostEvent) :
    (s.setInbox evs).inbox = evs := rfl
@[simp] theorem State.setInbox_draws (s : State) (evs : List HostEvent) :
    (s.setInbox evs).draws = s.draws := rfl

/-! ### respond -/

@[simp] theorem State.respond_bitWidth (s : State) (st : Status) :
    (s.respond st).bitWidth = s.bitWidth := rfl
@[simp] theorem State.respond_mem (s : State) (st : Status) :
    (s.respond st).mem = s.mem := rfl
@[simp] theorem State.respond_response (s : State) (st : Status) :
    (s.respond st).response = some st.word := rfl
@[simp] theorem State.respond_inbox (s : State) (st : Status) :
    (s.respond st).inbox = s.inbox := rfl
@[simp] theorem State.respond_draws (s : State) (st : Status) :
    (s.respond st).draws = s.draws := rfl

/-! ### raise -/

@[simp] theorem raise_bitWidth (s : State) (kind : ErrorKind) :
    (raise kind s).bitWidth = s.bitWidth := rfl
@[simp] theorem raise_mem (s : State) (kind : ErrorKind) :
    (raise kind s).mem = s.mem := rfl
@[simp] theorem raise_response (s : State) (kind : ErrorKind) :
    (raise kind s).response = some (Status.word (.error kind)) := rfl
@[simp] theorem raise_inbox (s : State) (kind : ErrorKind) :
    (raise kind s).inbox = s.inbox := rfl
@[simp] theorem raise_draws (s : State) (kind : ErrorKind) :
    (raise kind s).draws = s.draws := rfl

/-! ### returnOk -/

@[simp] theorem returnOk_bitWidth (s : State) :
    (returnOk s).bitWidth = s.bitWidth := rfl
@[simp] theorem returnOk_mem (s : State) :
    (returnOk s).mem = s.mem := rfl
@[simp] theorem returnOk_response (s : State) :
    (returnOk s).response = some (Status.word .ok) := rfl
@[simp] theorem returnOk_inbox (s : State) :
    (returnOk s).inbox = s.inbox := rfl
@[simp] theorem returnOk_draws (s : State) :
    (returnOk s).draws = s.draws := rfl

/-! ### applyReset -/

@[simp] theorem applyReset_bitWidth (s : State) :
    (applyReset s).bitWidth = 0#4 := rfl
@[simp] theorem applyReset_mem (s : State) :
    (applyReset s).mem = s.mem := rfl
@[simp] theorem applyReset_response (s : State) :
    (applyReset s).response = none := rfl
@[simp] theorem applyReset_inbox (s : State) :
    (applyReset s).inbox = s.inbox := rfl
@[simp] theorem applyReset_draws (s : State) :
    (applyReset s).draws = s.draws := rfl

/-! ### abandon -/

@[simp] theorem abandon_bitWidth (s : State) (t : State) :
    (abandon s t).bitWidth = 0#4 := rfl
@[simp] theorem abandon_mem_imgIn (s : State) (t : State) :
    (abandon s t).mem.imgIn = s.mem.imgIn := rfl
@[simp] theorem abandon_mem_labIn (s : State) (t : State) :
    (abandon s t).mem.labIn = s.mem.labIn := rfl
@[simp] theorem abandon_mem_imgOut (s : State) (t : State) :
    (abandon s t).mem.imgOut = Space.mix (Config.writtenBeforeReset s.draws) s.mem.imgOut t.mem.imgOut := rfl
@[simp] theorem abandon_mem_smpIn (s : State) (t : State) :
    (abandon s t).mem.smpIn = s.mem.smpIn := rfl
@[simp] theorem abandon_mem_labOut (s : State) (t : State) :
    (abandon s t).mem.labOut = Space.mix (Config.writtenBeforeReset s.draws) s.mem.labOut t.mem.labOut := rfl
@[simp] theorem abandon_response (s : State) (t : State) :
    (abandon s t).response = none := rfl
@[simp] theorem abandon_inbox (s : State) (t : State) :
    (abandon s t).inbox = s.inbox := rfl
@[simp] theorem abandon_draws (s : State) (t : State) :
    (abandon s t).draws = s.draws + 1 := rfl

/-! ### Memory -/

@[simp] theorem Memory.bytes_imgIn (m : Memory) : m.bytes .imgIn = m.imgIn := rfl
@[simp] theorem Memory.setBytes_imgIn_imgIn (m : Memory) (v : Space 8) :
    (m.setBytes .imgIn v).imgIn = v := rfl
@[simp] theorem Memory.setBytes_imgIn_labIn (m : Memory) (v : Space 8) :
    (m.setBytes .imgIn v).labIn = m.labIn := rfl
@[simp] theorem Memory.setBytes_imgIn_imgOut (m : Memory) (v : Space 8) :
    (m.setBytes .imgIn v).imgOut = m.imgOut := rfl
@[simp] theorem Memory.setBytes_imgIn_smpIn (m : Memory) (v : Space 8) :
    (m.setBytes .imgIn v).smpIn = m.smpIn := rfl
@[simp] theorem Memory.setBytes_imgIn_labOut (m : Memory) (v : Space 8) :
    (m.setBytes .imgIn v).labOut = m.labOut := rfl
@[simp] theorem Memory.bytes_labIn (m : Memory) : m.bytes .labIn = m.labIn := rfl
@[simp] theorem Memory.setBytes_labIn_imgIn (m : Memory) (v : Space 8) :
    (m.setBytes .labIn v).imgIn = m.imgIn := rfl
@[simp] theorem Memory.setBytes_labIn_labIn (m : Memory) (v : Space 8) :
    (m.setBytes .labIn v).labIn = v := rfl
@[simp] theorem Memory.setBytes_labIn_imgOut (m : Memory) (v : Space 8) :
    (m.setBytes .labIn v).imgOut = m.imgOut := rfl
@[simp] theorem Memory.setBytes_labIn_smpIn (m : Memory) (v : Space 8) :
    (m.setBytes .labIn v).smpIn = m.smpIn := rfl
@[simp] theorem Memory.setBytes_labIn_labOut (m : Memory) (v : Space 8) :
    (m.setBytes .labIn v).labOut = m.labOut := rfl
@[simp] theorem Memory.bytes_imgOut (m : Memory) : m.bytes .imgOut = m.imgOut := rfl
@[simp] theorem Memory.setBytes_imgOut_imgIn (m : Memory) (v : Space 8) :
    (m.setBytes .imgOut v).imgIn = m.imgIn := rfl
@[simp] theorem Memory.setBytes_imgOut_labIn (m : Memory) (v : Space 8) :
    (m.setBytes .imgOut v).labIn = m.labIn := rfl
@[simp] theorem Memory.setBytes_imgOut_imgOut (m : Memory) (v : Space 8) :
    (m.setBytes .imgOut v).imgOut = v := rfl
@[simp] theorem Memory.setBytes_imgOut_smpIn (m : Memory) (v : Space 8) :
    (m.setBytes .imgOut v).smpIn = m.smpIn := rfl
@[simp] theorem Memory.setBytes_imgOut_labOut (m : Memory) (v : Space 8) :
    (m.setBytes .imgOut v).labOut = m.labOut := rfl
@[simp] theorem Memory.bytes_smpIn (m : Memory) : m.bytes .smpIn = m.smpIn := rfl
@[simp] theorem Memory.setBytes_smpIn_imgIn (m : Memory) (v : Space 8) :
    (m.setBytes .smpIn v).imgIn = m.imgIn := rfl
@[simp] theorem Memory.setBytes_smpIn_labIn (m : Memory) (v : Space 8) :
    (m.setBytes .smpIn v).labIn = m.labIn := rfl
@[simp] theorem Memory.setBytes_smpIn_imgOut (m : Memory) (v : Space 8) :
    (m.setBytes .smpIn v).imgOut = m.imgOut := rfl
@[simp] theorem Memory.setBytes_smpIn_smpIn (m : Memory) (v : Space 8) :
    (m.setBytes .smpIn v).smpIn = v := rfl
@[simp] theorem Memory.setBytes_smpIn_labOut (m : Memory) (v : Space 8) :
    (m.setBytes .smpIn v).labOut = m.labOut := rfl

theorem Memory.bytes_setBytes (m : Memory) (sp sp' : ByteSpace) (v : Space 8) :
    (m.setBytes sp v).bytes sp' = if sp' = sp then v else m.bytes sp' := by
  cases sp <;> cases sp' <;> rfl

@[simp] theorem Memory.setBytes_labOut (m : Memory) (sp : ByteSpace) (v : Space 8) :
    (m.setBytes sp v).labOut = m.labOut := by
  cases sp <;> rfl

/-! ### The bit width as a natural -/

theorem State.n_lt (s : State) : s.n < 16 := s.bitWidth.isLt

theorem State.n_eq_zero_iff (s : State) : s.n = 0 ↔ s.bitWidth = 0#4 := by
  simp [State.n, ← BitVec.toNat_inj]

end Sys2Proof.Machine
end

