-- ==== Sys2Proof/Laws/Space.lean ====
section
/-! SUPPORT. What a space reads after each operation, and that every operation keeps the canonical form and the bound on
indices. The read laws need no canonical form. -/

namespace Sys2Proof.Machine

variable {w : Nat}

/-! ### Reading -/

@[simp] theorem Space.read_nil (i : Nat) : Space.read ([] : Space w) i = Config.unwritten w := rfl

theorem Space.read_cons (j : Nat) (v : BitVec w) (m : Space w) (i : Nat) :
    Space.read ((j, v) :: m) i = if i = j then v else Space.read m i := rfl

theorem Space.read_of_not_listed (m : Space w) (i : Nat) (h : ∀ c ∈ m, c.1 ≠ i) :
    m.read i = Config.unwritten w := by
  induction m with
  | nil => rfl
  | cons c m ih =>
    obtain ⟨j, v⟩ := c
    have hj : i ≠ j := fun e => h (j, v) (by simp) e.symm
    rw [Space.read_cons, if_neg hj]
    exact ih fun c hc => h c (by simp [hc])

theorem Space.read_append (a b : Space w) (i : Nat) :
    Space.read (a ++ b) i = if i ∈ a.map Prod.fst then a.read i else b.read i := by
  induction a with
  | nil => simp
  | cons c a ih =>
    obtain ⟨j, v⟩ := c
    simp only [List.cons_append, Space.read_cons, ih, List.map_cons, List.mem_cons]
    by_cases hj : i = j <;> simp [hj]

/-- Filtering by index keeps what a kept index reads; a dropped one reads as unlisted. -/
theorem Space.read_filter (p : Nat → Bool) (m : Space w) (i : Nat) :
    Space.read (m.filter fun c => p c.1) i = if p i then m.read i else Config.unwritten w := by
  induction m with
  | nil => simp
  | cons c m ih =>
    obtain ⟨j, v⟩ := c
    rw [List.filter_cons]
    by_cases hp : p j = true
    · simp only [hp, if_true, Space.read_cons, ih]
      by_cases hij : i = j
      · simp [hij, hp]
      · simp [hij]
    · rw [if_neg hp, ih, Space.read_cons]
      by_cases hij : i = j
      · subst hij; simp [hp]
      · simp [hij]

theorem Space.read_erase (m : Space w) (i k : Nat) :
    (m.erase i).read k = if k = i then Config.unwritten w else m.read k := by
  have h := Space.read_filter (fun j => j != i) m k
  by_cases hk : k = i <;> simpa [Space.erase, hk] using h

theorem Space.read_insertCell (m : Space w) (i k : Nat) (v : BitVec w) (h : ∀ c ∈ m, c.1 ≠ i) :
    (Space.insertCell i v m).read k = if k = i then v else m.read k := by
  induction m with
  | nil => rfl
  | cons c m ih =>
    obtain ⟨j, u⟩ := c
    have hj : j ≠ i := h (j, u) (by simp)
    unfold Space.insertCell
    split
    · rfl
    · rw [Space.read_cons, ih fun c hc => h c (by simp [hc]), Space.read_cons]
      by_cases hk : k = j
      · subst hk; simp [hj]
      · simp [hk]

theorem Space.not_listed_erase (m : Space w) (i : Nat) : ∀ c ∈ m.erase i, c.1 ≠ i := by
  intro c hc; simpa [Space.erase] using (List.mem_filter.mp hc).2

/-- Once and for all, what a space reads after one element is written. -/
theorem Space.read_write (m : Space w) (i k : Nat) (v : BitVec w) :
    (m.write i v).read k = if k = i then v else m.read k := by
  unfold Space.write
  split
  · next hv => rw [Space.read_erase, hv]
  · rw [Space.read_insertCell _ _ _ _ (m.not_listed_erase i), Space.read_erase]
    by_cases hk : k = i <;> simp [hk]

theorem Space.cellsFrom_bounds (start : Nat) (vals : List (BitVec w)) :
    ∀ c ∈ Space.cellsFrom start vals, start ≤ c.1 ∧ c.1 < start + vals.length ∧ c.2 ≠ Config.unwritten w := by
  induction vals generalizing start with
  | nil => simp [Space.cellsFrom]
  | cons v vs ih =>
    intro c hc
    unfold Space.cellsFrom at hc
    split at hc
    · obtain ⟨h1, h2, h3⟩ := ih _ c hc
      exact ⟨by omega, by rw [List.length_cons]; omega, h3⟩
    · next hv =>
      rcases List.mem_cons.mp hc with rfl | hc
      · exact ⟨Nat.le_refl _, by simp, hv⟩
      · obtain ⟨h1, h2, h3⟩ := ih _ c hc
        exact ⟨by omega, by rw [List.length_cons]; omega, h3⟩

theorem Space.read_cellsFrom (start : Nat) (vals : List (BitVec w)) (k : Nat) :
    (Space.cellsFrom start vals).read (start + k) = vals.getD k (Config.unwritten w) := by
  induction vals generalizing start k with
  | nil => simp [Space.cellsFrom]
  | cons v vs ih =>
    unfold Space.cellsFrom
    cases k with
    | zero =>
      split
      · next hv =>
        rw [Space.read_of_not_listed]
        · simp [hv]
        · intro c hc; have := Space.cellsFrom_bounds _ _ c hc; omega
      · simp [Space.read_cons]
    | succ k =>
      have e : start + (k + 1) = start + 1 + k := by omega
      split
      · rw [e, ih]; simp
      · rw [Space.read_cons, if_neg (by omega), e, ih]; simp

/-- Once and for all, what a space reads after a block is written. -/
theorem Space.read_writeBlock (m : Space w) (vals : List (BitVec w)) (k : Nat) :
    (m.writeBlock vals).read k = if k < vals.length then vals.getD k (Config.unwritten w) else m.read k := by
  have hc := Space.read_cellsFrom 0 vals k
  have hf := Space.read_filter (fun j => decide (vals.length ≤ j)) m k
  rw [Nat.zero_add] at hc
  unfold Space.writeBlock
  rw [Space.read_append]
  by_cases hk : k < vals.length
  · rw [if_pos hk]
    split
    · exact hc
    · next hmem =>
      have h0 : (Space.cellsFrom 0 vals).read k = Config.unwritten w :=
        Space.read_of_not_listed _ _ fun c hcm e => hmem (e ▸ List.mem_map_of_mem hcm)
      rw [hf, if_neg (by simpa using hk), ← hc, h0]
  · rw [if_neg hk, if_neg, hf, if_pos (by simpa using hk)]
    intro hmem
    obtain ⟨c, hcm, rfl⟩ := List.mem_map.mp hmem
    have := Space.cellsFrom_bounds _ _ c hcm
    omega

/-- Once and for all, what a mix of two spaces reads: each element from one of the two. -/
theorem Space.read_mix (choose : Nat → Bool) (old new : Space w) (k : Nat) :
    (Space.mix choose old new).read k = if choose k then new.read k else old.read k := by
  have key : ∀ (keys : List Nat) (m : Space w),
      (keys.foldl (fun m i => if choose i then m.write i (new.read i) else m) m).read k =
        if k ∈ keys ∧ choose k then new.read k else m.read k := by
    intro keys
    induction keys with
    | nil => simp
    | cons i keys ih =>
      intro m
      rw [List.foldl_cons, ih]
      by_cases hk : k ∈ keys ∧ choose k = true
      · rw [if_pos hk, if_pos ⟨List.mem_cons_of_mem _ hk.1, hk.2⟩]
      · rw [if_neg hk]
        by_cases hi : choose i = true
        · rw [if_pos hi, Space.read_write]
          by_cases hki : k = i
          · subst hki; simp [hi]
          · simp only [hki, if_false, List.mem_cons, false_or]; rw [if_neg hk]
        · rw [if_neg hi]
          by_cases hki : k = i
          · subst hki; simp [hi]
          · simp only [hki, List.mem_cons, false_or]; rw [if_neg hk]
  unfold Space.mix
  rw [key]
  by_cases hc : choose k = true
  · by_cases hk : k ∈ old.map Prod.fst ++ new.map Prod.fst
    · simp [hc, hk]
    · have h1 : old.read k = Config.unwritten w := Space.read_of_not_listed _ _ fun c hcm e =>
        hk (List.mem_append_left _ (e ▸ List.mem_map_of_mem hcm))
      have h2 : new.read k = Config.unwritten w := Space.read_of_not_listed _ _ fun c hcm e =>
        hk (List.mem_append_right _ (e ▸ List.mem_map_of_mem hcm))
      simp [hc, hk, h1, h2]
  · simp [hc]

/-! ### The canonical form is kept -/

theorem Space.wf_nil : Space.wf ([] : Space w) := ⟨List.Pairwise.nil, by simp⟩

theorem Space.wf_filter (p : Nat × BitVec w → Bool) (m : Space w) (h : m.wf) : Space.wf (m.filter p) :=
  ⟨h.1.filter p, fun c hc => h.2 c (List.mem_filter.mp hc).1⟩

theorem Space.mem_insertCell (i : Nat) (v : BitVec w) (m : Space w) (c : Nat × BitVec w) :
    c ∈ Space.insertCell i v m ↔ c = (i, v) ∨ c ∈ m := by
  induction m with
  | nil => simp [Space.insertCell]
  | cons d m ih =>
    obtain ⟨j, u⟩ := d
    unfold Space.insertCell
    split
    · simp
    · simp only [List.mem_cons, ih]; tauto

theorem Space.wf_insertCell (i : Nat) (v : BitVec w) (m : Space w) (hv : v ≠ Config.unwritten w)
    (hi : ∀ c ∈ m, c.1 ≠ i) (h : m.wf) : Space.wf (Space.insertCell i v m) := by
  refine ⟨?_, fun c hc => ?_⟩
  · obtain ⟨hs, -⟩ := h
    induction m with
    | nil => simp [Space.insertCell]
    | cons d m ih =>
      obtain ⟨j, u⟩ := d
      have hm := List.pairwise_cons.mp hs
      have hji : j ≠ i := hi (j, u) (by simp)
      unfold Space.insertCell
      split
      · next hlt =>
        refine List.pairwise_cons.mpr ⟨fun c hc => ?_, hs⟩
        rcases List.mem_cons.mp hc with rfl | hc
        · exact hlt
        · exact Nat.lt_trans hlt (hm.1 c hc)
      · next hlt =>
        refine List.pairwise_cons.mpr ⟨fun c hc => ?_, ih (fun c hc => hi c (by simp [hc])) hm.2⟩
        rcases (Space.mem_insertCell i v m c).mp hc with rfl | hc
        · simp only; omega
        · exact hm.1 c hc
  · rcases (Space.mem_insertCell i v m c).mp hc with rfl | hc
    · exact hv
    · exact h.2 c hc

theorem Space.wf_write (m : Space w) (i : Nat) (v : BitVec w) (h : m.wf) : (m.write i v).wf := by
  unfold Space.write
  split
  · exact Space.wf_filter _ m h
  · next hv => exact Space.wf_insertCell i v _ hv (m.not_listed_erase i) (Space.wf_filter _ m h)

theorem Space.wf_cellsFrom (start : Nat) (vals : List (BitVec w)) : (Space.cellsFrom start vals).wf := by
  refine ⟨?_, fun c hc => (Space.cellsFrom_bounds _ _ c hc).2.2⟩
  induction vals generalizing start with
  | nil => simp [Space.cellsFrom]
  | cons v vs ih =>
    unfold Space.cellsFrom
    split
    · exact ih _
    · exact List.pairwise_cons.mpr ⟨fun c hc => by have := Space.cellsFrom_bounds _ _ c hc; simp only; omega, ih _⟩

theorem Space.wf_writeBlock (m : Space w) (vals : List (BitVec w)) (h : m.wf) : (m.writeBlock vals).wf := by
  have hc := Space.wf_cellsFrom 0 vals
  have hf := Space.wf_filter (fun c => decide (vals.length ≤ c.1)) m h
  refine ⟨List.pairwise_append.mpr ⟨hc.1, hf.1, fun a ha b hb => ?_⟩, fun c hcm => ?_⟩
  · have h1 := Space.cellsFrom_bounds _ _ a ha
    have h2 := (List.mem_filter.mp hb).2
    simp only [decide_eq_true_eq] at h2
    omega
  · rcases List.mem_append.mp hcm with h1 | h1
    · exact hc.2 c h1
    · exact hf.2 c h1

theorem Space.wf_mix (choose : Nat → Bool) (old new : Space w) (h : old.wf) : (Space.mix choose old new).wf := by
  unfold Space.mix
  generalize old.map Prod.fst ++ new.map Prod.fst = keys
  induction keys generalizing old with
  | nil => exact h
  | cons i keys ih =>
    rw [List.foldl_cons]
    split
    · exact ih _ (Space.wf_write _ _ _ h)
    · exact ih _ h

/-! ### Canonical spaces are determined by what they read -/

theorem Space.read_of_mem (m : Space w) (h : m.wf) (c : Nat × BitVec w) (hc : c ∈ m) : m.read c.1 = c.2 := by
  obtain ⟨hs, -⟩ := h
  induction m with
  | nil => cases hc
  | cons d m ih =>
    obtain ⟨j, u⟩ := d
    have hm := List.pairwise_cons.mp hs
    rcases List.mem_cons.mp hc with rfl | hc
    · simp [Space.read_cons]
    · rw [Space.read_cons, if_neg (Nat.ne_of_gt (hm.1 c hc)), ih hc hm.2]

theorem Space.mem_iff_read (m : Space w) (h : m.wf) (c : Nat × BitVec w) :
    c ∈ m ↔ m.read c.1 = c.2 ∧ c.2 ≠ Config.unwritten w := by
  refine ⟨fun hc => ⟨Space.read_of_mem m h c hc, h.2 c hc⟩, fun ⟨hr, hv⟩ => ?_⟩
  by_contra hn
  refine hv (hr ▸ Space.read_of_not_listed m c.1 fun d hd e => hn ?_)
  have h2 := Space.read_of_mem m h d hd
  rw [e, hr] at h2
  have : d = c := Prod.ext e h2.symm
  exact this ▸ hd

/-- Equal memories are equal data: two canonical spaces that read the same everywhere are the same list. -/
theorem Space.eq_of_read (a b : Space w) (ha : a.wf) (hb : b.wf) (h : ∀ k, a.read k = b.read k) : a = b := by
  refine List.Perm.eq_of_pairwise (le := fun x y : Nat × BitVec w => x.1 < y.1)
    (fun x y _ _ h1 h2 => absurd h1 (Nat.lt_asymm h2)) ha.1 hb.1 ?_
  have nd : ∀ m : Space w, m.wf → m.Nodup := fun m hm => hm.1.imp fun {x y} hlt e => by simp [e] at hlt
  refine (List.perm_ext_iff_of_nodup (nd a ha) (nd b hb)).mpr fun c => ?_
  rw [Space.mem_iff_read a ha, Space.mem_iff_read b hb, h]

/-! ### The bound on indices is kept -/

theorem Space.mem_erase (m : Space w) (i : Nat) (c : Nat × BitVec w) (h : c ∈ m.erase i) : c ∈ m :=
  (List.mem_filter.mp h).1

theorem Space.within_write (m : Space w) (i : Nat) (v : BitVec w) (limit : Nat) (hi : i < limit)
    (h : m.within limit) : (m.write i v).within limit := by
  intro c hc
  unfold Space.write at hc
  split at hc
  · exact h c (m.mem_erase i c hc)
  · rcases (Space.mem_insertCell i v _ c).mp hc with rfl | hc
    · exact hi
    · exact h c (m.mem_erase i c hc)

theorem Space.within_writeBlock (m : Space w) (vals : List (BitVec w)) (limit : Nat) (hl : vals.length ≤ limit)
    (h : m.within limit) : (m.writeBlock vals).within limit := by
  intro c hc
  rcases List.mem_append.mp hc with h1 | h1
  · have := Space.cellsFrom_bounds _ _ c h1; omega
  · exact h c (List.mem_filter.mp h1).1

theorem Space.within_mix (choose : Nat → Bool) (old new : Space w) (limit : Nat) (ho : old.within limit)
    (hn : new.within limit) : (Space.mix choose old new).within limit := by
  have key : ∀ (keys : List Nat) (m : Space w), (∀ k ∈ keys, k < limit) → m.within limit →
      Space.within (keys.foldl (fun m i => if choose i then m.write i (new.read i) else m) m) limit := by
    intro keys
    induction keys with
    | nil => intro m _ hm; exact hm
    | cons i keys ih =>
      intro m hk hm
      rw [List.foldl_cons]
      refine ih _ (fun k hk' => hk k (by simp [hk'])) ?_
      split
      · exact Space.within_write _ _ _ _ (hk i (by simp)) hm
      · exact hm
  refine key _ old (fun k hk => ?_) ho
  rcases List.mem_append.mp hk with h1 | h1
  · obtain ⟨c, hc, rfl⟩ := List.mem_map.mp h1; exact ho c hc
  · obtain ⟨c, hc, rfl⟩ := List.mem_map.mp h1; exact hn c hc

end Sys2Proof.Machine
end

