-- ==== Sys2Proof/Laws/Blocks.lean ====
section
/-! SUPPORT. The linear indices and the blocks of elements the commands write: how long each block is, and which element
stands at each index. -/

namespace Sys2Proof.Machine

/-! ### Rows of equal length laid end to end -/

theorem length_flatMap_rows {α : Type} (f : Nat → List α) (k a : Nat) (h : ∀ i, i < a → (f i).length = k) :
    ((List.range a).flatMap f).length = a * k := by
  induction a with
  | zero => simp
  | succ a ih =>
    rw [List.range_succ, List.flatMap_append, List.length_append, ih fun i hi => h i (by omega), List.flatMap_singleton,
      h a (by omega), Nat.succ_mul]

theorem getElem?_flatMap_rows {α : Type} (f : Nat → List α) (k a i j : Nat)
    (h : ∀ i, i < a → (f i).length = k) (hi : i < a) (hj : j < k) :
    ((List.range a).flatMap f)[i * k + j]? = (f i)[j]? := by
  induction a with
  | zero => omega
  | succ a ih =>
    have hl := length_flatMap_rows f k a fun i hi => h i (by omega)
    rw [List.range_succ, List.flatMap_append, List.flatMap_singleton]
    by_cases hia : i < a
    · have hlt : i * k + j < a * k := by
        have := Nat.mul_le_mul_right k (show i + 1 ≤ a by omega)
        rw [Nat.succ_mul] at this; omega
      rw [List.getElem?_append_left (by omega), ih (fun i hi => h i (by omega)) hia]
    · have : i = a := by omega
      subst this
      rw [List.getElem?_append_right (by omega), hl]
      congr 1; omega

/-! ### Linear indices (20_memory R44 to R47) -/

theorem labIndex_lt {h w y x : Nat} (hy : y < h) (hx : x < w) : labIndex w y x < h * w := by
  have := Nat.mul_le_mul_right w (show y + 1 ≤ h by omega)
  rw [Nat.succ_mul] at this; unfold labIndex; omega

theorem imgIndex_eq (h w c y x : Nat) : imgIndex h w c y x = c * (h * w) + labIndex w y x := by
  unfold imgIndex labIndex; rw [Nat.mul_assoc, Nat.add_assoc]

theorem imgIndex_lt {h w c y x : Nat} (hc : c < Config.nch) (hy : y < h) (hx : x < w) :
    imgIndex h w c y x < Config.nch * (h * w) := by
  have h1 := labIndex_lt hy hx
  have h2 := Nat.mul_le_mul_right (h * w) (show c + 1 ≤ Config.nch from hc)
  rw [Nat.succ_mul] at h2
  rw [imgIndex_eq]; omega

/-- Every index of a grid is some element's. -/
theorem labIndex_surjective {h w k : Nat} (hk : k < h * w) : ∃ y x, y < h ∧ x < w ∧ k = labIndex w y x := by
  have hw : 0 < w := by rcases Nat.eq_zero_or_pos w with rfl | hw; · simp at hk
                        · exact hw
  refine ⟨k / w, k % w, Nat.div_lt_of_lt_mul (by rwa [Nat.mul_comm] at hk), Nat.mod_lt _ hw, ?_⟩
  unfold labIndex; rw [Nat.mul_comm]; exact (Nat.div_add_mod k w).symm

/-- Every index of an image is some element's. -/
theorem imgIndex_surjective {h w k : Nat} (hk : k < Config.nch * (h * w)) :
    ∃ c y x, c < Config.nch ∧ y < h ∧ x < w ∧ k = imgIndex h w c y x := by
  have hp : 0 < h * w := by rcases Nat.eq_zero_or_pos (h * w) with e | hp; · simp [e] at hk
                            · exact hp
  obtain ⟨y, x, hy, hx, e⟩ := labIndex_surjective (Nat.mod_lt k hp)
  refine ⟨k / (h * w), y, x, Nat.div_lt_of_lt_mul (by rwa [Nat.mul_comm] at hk), hy, hx, ?_⟩
  rw [imgIndex_eq, ← e, Nat.mul_comm]; exact (Nat.div_add_mod k (h * w)).symm

theorem labIndex_div {w y x : Nat} (hx : x < w) : labIndex w y x / w = y := by
  unfold labIndex
  rw [Nat.mul_comm, Nat.mul_add_div (by omega), Nat.div_eq_of_lt hx, Nat.add_zero]

theorem labIndex_mod {w y x : Nat} (hx : x < w) : labIndex w y x % w = x := by
  unfold labIndex
  rw [Nat.mul_comm, Nat.mul_add_mod, Nat.mod_eq_of_lt hx]

/-- No two elements of an image share an index. -/
theorem imgIndex_injective {h w c y x c' y' x' : Nat} (hy : y < h) (hx : x < w) (hy' : y' < h) (hx' : x' < w)
    (e : imgIndex h w c y x = imgIndex h w c' y' x') : c = c' ∧ y = y' ∧ x = x' := by
  rw [imgIndex_eq, imgIndex_eq] at e
  have h1 := labIndex_lt hy hx
  have h2 := labIndex_lt hy' hx'
  have hc : c = c' := by
    have := congrArg (· / (h * w)) e
    simpa [Nat.mul_comm _ (h * w), Nat.mul_add_div (show 0 < h * w by omega), Nat.div_eq_of_lt h1,
      Nat.div_eq_of_lt h2] using this
  subst hc
  have hl : labIndex w y x = labIndex w y' x' := by omega
  have hd := congrArg (· / w) hl
  have hm := congrArg (· % w) hl
  simp only [labIndex_div hx, labIndex_div hx', labIndex_mod hx, labIndex_mod hx'] at hd hm
  exact ⟨rfl, hd, hm⟩

/-! ### The block `ENC` writes -/

theorem encImage_length (n : Nat) (imgIn labIn : Space 8) (h w : Nat) :
    (encImage n imgIn labIn h w).length = Config.nch * (h * w) := by
  unfold encImage
  exact length_flatMap_rows _ (h * w) _ fun c _ => length_flatMap_rows _ w h fun y _ => by simp

theorem encImage_getD {h w c y x : Nat} (n : Nat) (imgIn labIn : Space 8) (hc : c < Config.nch) (hy : y < h)
    (hx : x < w) (d : Byte) :
    (encImage n imgIn labIn h w).getD (imgIndex h w c y x) d = encElement n imgIn labIn h w c y x := by
  rw [List.getD_eq_getElem?_getD, imgIndex_eq]
  unfold encImage
  rw [getElem?_flatMap_rows _ (h * w) _ c _ (fun c _ => length_flatMap_rows _ w h fun y _ => by simp) hc
    (labIndex_lt hy hx)]
  unfold labIndex
  rw [getElem?_flatMap_rows _ w h y x (fun y _ => by simp) hy hx]
  simp [hx]

/-- What `IMG_OUT` holds after the effect of `ENC`, at each element of the shape. -/
theorem encEffect_read {h w c y x : Nat} (s : State) (hc : c < Config.nch) (hy : y < h) (hx : x < w) :
    (encEffect h w s).mem.imgOut.read (imgIndex h w c y x) =
      encElement s.n s.mem.imgIn s.mem.labIn h w c y x := by
  unfold encEffect
  rw [State.setImgOut_mem_imgOut, Space.read_writeBlock, encImage_length, if_pos (imgIndex_lt hc hy hx),
    encImage_getD _ _ _ hc hy hx]

/-- What `IMG_OUT` holds after the effect of `ENC`, beyond the shape. -/
theorem encEffect_read_beyond {h w k : Nat} (s : State) (hk : Config.nch * (h * w) ≤ k) :
    (encEffect h w s).mem.imgOut.read k = s.mem.imgOut.read k := by
  unfold encEffect
  rw [State.setImgOut_mem_imgOut, Space.read_writeBlock, encImage_length, if_neg (by omega)]

/-! ### The block `DEC` writes -/

theorem decLabels_length (n : Nat) (smpIn : Space 8) (ns : Nat) : (decLabels n smpIn ns).length = ns := by
  simp [decLabels]

theorem decLabels_getD {ns i : Nat} (n : Nat) (smpIn : Space 8) (hi : i < ns) (d : LabelWord) :
    (decLabels n smpIn ns).getD i d = decElement n smpIn i := by
  simp [decLabels, List.getD_eq_getElem?_getD, hi]

/-- What `LAB_OUT` holds after the effect of `DEC`. -/
theorem decEffect_read (s : State) (ns i : Nat) :
    (decEffect ns s).mem.labOut.read i = if i < ns then decElement s.n s.mem.smpIn i else s.mem.labOut.read i := by
  unfold decEffect
  rw [State.setLabOut_mem_labOut, Space.read_writeBlock, decLabels_length]
  split
  · next hi => exact decLabels_getD _ _ hi _
  · rfl

/-! ### The block `flatten` writes -/

theorem flatten_length (h w : Nat) (img : Space 8) (xyz : List (Byte × Byte × Byte)) :
    ((List.range (h * w)).flatMap fun i => flattenRecord h w img (xyz.getD i (0, 0, 0)) i).length = h * w * 6 :=
  length_flatMap_rows _ 6 _ fun i _ => by simp [flattenRecord]

/-- What `SMP_IN` holds after `flatten`: field f of record i is entry f of the record. -/
theorem flatten_read {h w i f : Nat} (img smp : Space 8) (xyz : List (Byte × Byte × Byte)) (hi : i < h * w)
    (hf : f < 6) :
    (flatten h w img xyz smp).read (smpIndex i f) =
      (flattenRecord h w img (xyz.getD i (0, 0, 0)) i).getD f (Config.unwritten 8) := by
  unfold flatten smpIndex
  rw [Space.read_writeBlock, flatten_length, if_pos (by omega), List.getD_eq_getElem?_getD, Nat.mul_comm 6 i,
    getElem?_flatMap_rows _ 6 _ i f (fun i _ => by simp [flattenRecord]) hi hf, ← List.getD_eq_getElem?_getD]

end Sys2Proof.Machine
end

