-- ==== Sys2Proof/Laws/Decoding.lean ====
section
/-! SUPPORT. Words laid end to end and fields cut out of them, as natural numbers; and all the decoder can
accept, said once. -/

namespace Sys2Proof

/-- Concatenation is multiplication by a power of two and addition (00_scope R14). -/
theorem toNat_append_add {m n : Nat} (a : BitVec m) (b : BitVec n) :
    (a ++ b).toNat = a.toNat * 2 ^ n + b.toNat := by
  rw [BitVec.toNat_append, ← Nat.shiftLeft_add_eq_or_of_lt b.isLt, Nat.shiftLeft_eq]

/-- A field is the quotient by a power of two, modulo a power of two (00_scope R14). -/
theorem toNat_extract {n : Nat} (lo len : Nat) (w : BitVec n) :
    (w.extractLsb' lo len).toNat = w.toNat / 2 ^ lo % 2 ^ len := by
  rw [BitVec.extractLsb'_toNat, Nat.shiftRight_eq_div_pow]

theorem opField_eq (w0 : Word) (k : BitVec 2) (h : w0.toNat / 2 ^ 30 = k.toNat) : opField w0 = k := by
  apply BitVec.eq_of_toNat_eq
  rw [opField, toNat_extract, h]
  exact Nat.mod_eq_of_lt k.isLt

/-- All the decoder accepts: one descriptor form per operation. -/
theorem decode_cases {words : List Word} {i : Instr} (h : decode words = .ok i) :
    (∃ w0, words = [w0] ∧ opField w0 = 1#2 ∧ w0.extractLsb' 4 26 = 0#26 ∧ i = decodeCfg w0) ∨
    (∃ w0 w1 w2, words = [w0, w1, w2] ∧ opField w0 = 2#2 ∧ w0.extractLsb' 8 14 = 0#14 ∧ i = decodeEnc w0 w1 w2) ∨
    (∃ w0 w1, words = [w0, w1] ∧ opField w0 = 3#2 ∧ w0.extractLsb' 8 20 = 0#20 ∧ i = decodeDec w0 w1) := by
  unfold decode at h
  split at h
  · cases h
  · next w0 rest =>
    split at h
    · cases h
    · next h0 =>
      split at h
      · cases h
      · next hr =>
        split at h
        · next h1 =>
          split at h
          · cases h; exact .inl ⟨w0, rfl, h1, by simpa [reservedBitsZero, h1] using hr, rfl⟩
          · cases h
        · next h1 =>
          split at h
          · next h2 =>
            split at h
            · cases h; exact .inr (.inl ⟨w0, _, _, rfl, h2, by simpa [reservedBitsZero, h2] using hr, rfl⟩)
            · cases h
          · next h2 =>
            have h3 : opField w0 = 3#2 := by
              revert h0 h1 h2; generalize opField w0 = o; revert o; decide
            split at h
            · cases h; exact .inr (.inr ⟨w0, _, rfl, h3, by simpa [reservedBitsZero, h3] using hr, rfl⟩)
            · cases h

end Sys2Proof
end

