-- ==== Sys2Proof/Laws/Exec.lean ====
section
/-! SUPPORT. What the end of a command, each meaning, each host event and the step can do, said once each. -/

namespace Sys2Proof.Machine

/-! ### The end of a command -/

/-- A command ends in one of two ways. -/
theorem finish_cases (found : Option ErrorKind) (effect : State → State) (s : State) :
    (∃ k, found = some k ∧ finish found effect s = raise k s) ∨
    (found = none ∧ finish found effect s = returnOk (effect s)) := by
  cases found with
  | none => exact .inr ⟨rfl, rfl⟩
  | some k => exact .inl ⟨k, rfl, rfl⟩

@[simp] theorem finish_none (effect : State → State) (s : State) : finish none effect s = returnOk (effect s) := rfl

@[simp] theorem finish_some (k : ErrorKind) (effect : State → State) (s : State) :
    finish (some k) effect s = raise k s := rfl

theorem Status.word_toNat (st : Status) : st.word.toNat = st.code.toNat := by
  rcases st with _ | k
  · rfl
  · cases k <;> rfl

theorem Status.word_injective {a b : Status} (h : a.word = b.word) : a = b := by
  rcases a with _ | a <;> rcases b with _ | b <;> first
    | rfl
    | (cases a; all_goals first | exact absurd h (by decide) | (cases b <;> first | rfl | exact absurd h (by decide)))
    | (cases b <;> exact absurd h (by decide))

/-! ### The effects leave everything but their output space -/

@[simp] theorem encEffect_bitWidth (h w : Nat) (s : State) : (encEffect h w s).bitWidth = s.bitWidth := rfl
@[simp] theorem encEffect_imgIn (h w : Nat) (s : State) : (encEffect h w s).mem.imgIn = s.mem.imgIn := rfl
@[simp] theorem encEffect_labIn (h w : Nat) (s : State) : (encEffect h w s).mem.labIn = s.mem.labIn := rfl
@[simp] theorem encEffect_smpIn (h w : Nat) (s : State) : (encEffect h w s).mem.smpIn = s.mem.smpIn := rfl
@[simp] theorem encEffect_labOut (h w : Nat) (s : State) : (encEffect h w s).mem.labOut = s.mem.labOut := rfl
@[simp] theorem encEffect_response (h w : Nat) (s : State) : (encEffect h w s).response = s.response := rfl
@[simp] theorem encEffect_inbox (h w : Nat) (s : State) : (encEffect h w s).inbox = s.inbox := rfl
@[simp] theorem encEffect_draws (h w : Nat) (s : State) : (encEffect h w s).draws = s.draws := rfl
@[simp] theorem decEffect_bitWidth (ns : Nat) (s : State) : (decEffect ns s).bitWidth = s.bitWidth := rfl
@[simp] theorem decEffect_imgIn (ns : Nat) (s : State) : (decEffect ns s).mem.imgIn = s.mem.imgIn := rfl
@[simp] theorem decEffect_labIn (ns : Nat) (s : State) : (decEffect ns s).mem.labIn = s.mem.labIn := rfl
@[simp] theorem decEffect_imgOut (ns : Nat) (s : State) : (decEffect ns s).mem.imgOut = s.mem.imgOut := rfl
@[simp] theorem decEffect_smpIn (ns : Nat) (s : State) : (decEffect ns s).mem.smpIn = s.mem.smpIn := rfl
@[simp] theorem decEffect_response (ns : Nat) (s : State) : (decEffect ns s).response = s.response := rfl
@[simp] theorem decEffect_inbox (ns : Nat) (s : State) : (decEffect ns s).inbox = s.inbox := rfl
@[simp] theorem decEffect_draws (ns : Nat) (s : State) : (decEffect ns s).draws = s.draws := rfl

/-! ### When the checks pass -/

theorem isU8_eq_true {tag : BitVec 2} : isU8 tag = true ↔ tag = 0#2 := by simp [isU8]

theorem isU8_eq_false {tag : BitVec 2} : isU8 tag = false ↔ tag ≠ 0#2 := by simp [isU8]

theorem cfgError_eq_none {now n : BitVec 4} : cfgError now n = none ↔ now = 0#4 ∧ 1 ≤ n.toNat := by
  unfold cfgError
  by_cases h1 : now = 0#4
  · by_cases h2 : n.toNat ≤ 0
    · rw [if_neg (not_not.mpr h1), if_pos h2]
      exact ⟨fun e => (by cases e), fun h => absurd h.2 (by omega)⟩
    · rw [if_neg (not_not.mpr h1), if_neg h2]
      exact ⟨fun _ => ⟨h1, by omega⟩, fun _ => rfl⟩
  · rw [if_pos h1]
    exact ⟨fun e => (by cases e), fun h => absurd h.1 h1⟩

theorem encError_eq_none {now : BitVec 4} {labIn : Space 8} {ietype letype irank lrank : BitVec 2} {c : BitVec 8}
    {ih iw lh lw : BitVec 16} :
    encError now labIn ietype letype irank lrank c ih iw lh lw = none ↔
      now ≠ 0#4 ∧ (isU8 ietype = true ∧ isU8 letype = true) ∧
      (irank.toNat = 3 ∧ c.toNat = Config.nch ∧ lrank.toNat = 2 ∧ ih = lh ∧ iw = lw) ∧
      labelsInRange now.toNat labIn lh.toNat lw.toNat = true := by
  unfold encError
  by_cases h1 : now = 0#4
  · simp [h1]
  · rw [if_neg h1]
    by_cases h2 : isU8 ietype = false ∨ isU8 letype = false
    · rw [if_pos h2]; rcases h2 with h2 | h2 <;> simp [h2]
    · rw [if_neg h2]
      by_cases h3 : irank.toNat ≠ 3 ∨ c.toNat ≠ Config.nch ∨ lrank.toNat ≠ 2 ∨ ih ≠ lh ∨ iw ≠ lw
      · rw [if_pos h3]
        constructor
        · intro e; cases e
        · rintro ⟨-, -, ⟨a, b, c, d, e⟩, -⟩; simp [a, b, c, d, e] at h3
      · rw [if_neg h3]
        simp only [not_or, ne_eq, not_not, Bool.not_eq_false] at h2 h3
        by_cases h4 : labelsInRange now.toNat labIn lh.toNat lw.toNat = false
        · simp [h4]
        · rw [if_neg h4]
          exact ⟨fun _ => ⟨h1, h2, h3, by simpa using h4⟩, fun _ => rfl⟩

theorem decError_eq_none {now : BitVec 4} {setype : BitVec 2} {f : BitVec 8} :
    decError now setype f = none ↔ now ≠ 0#4 ∧ isU8 setype = true ∧ f.toNat = Config.nf := by
  unfold decError
  by_cases h1 : now = 0#4
  · simp [h1]
  · rw [if_neg h1]
    by_cases h2 : isU8 setype = false
    · simp [h2]
    · rw [if_neg h2]
      by_cases h3 : f.toNat ≠ Config.nf
      · simp [h3]
      · rw [if_neg h3]; simp_all

theorem labelsInRange_eq_true {n : Nat} {labIn : Space 8} {lh lw : Nat} :
    labelsInRange n labIn lh lw = true ↔
      ∀ y, y < lh → ∀ x, x < lw → inRange n ((labIn.read (labIndex lw y x)).toNat : Int) = true := by
  simp [labelsInRange, List.all_eq_true]

theorem inRange_natCast (n label : Nat) : inRange n (label : Int) = true ↔ label < 2 ^ (3 * n) := by
  unfold inRange classBitsOf
  simp only [Bool.and_eq_true, decide_eq_true_eq]
  constructor
  · rintro ⟨-, h⟩; exact_mod_cast h
  · intro h; exact ⟨by omega, by exact_mod_cast h⟩

/-! ### What each operation can do -/

/-- Every command completes, raising the error its checks found or taking its effect (20_memory R57). -/
theorem exec_cases (i : Instr) (s : State) :
    (∃ k, exec i s = .next (raise k s)) ∨
    (∃ n, i = .cfg n ∧ cfgError s.bitWidth n = none ∧ exec i s = .next (returnOk (s.setBitWidth n))) ∨
    (∃ ie le ir lr c ih iw lh lw, i = .enc ie le ir lr c ih iw lh lw ∧
      encError s.bitWidth s.mem.labIn ie le ir lr c ih iw lh lw = none ∧
      exec i s = .next (returnOk (encEffect ih.toNat iw.toNat s))) ∨
    (∃ st f ns, i = .dec st f ns ∧ decError s.bitWidth st f = none ∧
      exec i s = .next (returnOk (decEffect ns.toNat s))) := by
  cases i with
  | cfg n =>
    rcases finish_cases (cfgError s.bitWidth n) (fun s => s.setBitWidth n) s with ⟨k, -, e⟩ | ⟨h, e⟩
    · exact .inl ⟨k, by simp only [exec, execCfg, e]⟩
    · exact .inr (.inl ⟨n, rfl, h, by simp only [exec, execCfg, e]⟩)
  | enc ie le ir lr c ih iw lh lw =>
    rcases finish_cases (encError s.bitWidth s.mem.labIn ie le ir lr c ih iw lh lw) (encEffect ih.toNat iw.toNat) s
      with ⟨k, -, e⟩ | ⟨h, e⟩
    · exact .inl ⟨k, by simp only [exec, execEnc, e]⟩
    · exact .inr (.inr (.inl ⟨ie, le, ir, lr, c, ih, iw, lh, lw, rfl, h, by simp only [exec, execEnc, e]⟩))
  | dec st f ns =>
    rcases finish_cases (decError s.bitWidth st f) (decEffect ns.toNat) s with ⟨k, -, e⟩ | ⟨h, e⟩
    · exact .inl ⟨k, by simp only [exec, execDec, e]⟩
    · exact .inr (.inr (.inr ⟨st, f, ns, rfl, h, by simp only [exec, execDec, e]⟩))

/-- What no command changes, and the one way the bit width can change. -/
theorem exec_keeps {i : Instr} {s t : State} (h : exec i s = .next t) :
    t.inbox = s.inbox ∧ t.draws = s.draws ∧
    (t.mem.imgIn = s.mem.imgIn ∧ t.mem.labIn = s.mem.labIn ∧ t.mem.smpIn = s.mem.smpIn) ∧
    (t.bitWidth = s.bitWidth ∨ (s.bitWidth = 0#4 ∧ ∃ n, i = .cfg n ∧ t.bitWidth = n)) := by
  rcases exec_cases i s with ⟨k, e⟩ | ⟨n, rfl, hc, e⟩ | ⟨ie, le, ir, lr, c, ih, iw, lh, lw, rfl, -, e⟩ |
    ⟨tag, f, ns, rfl, -, e⟩ <;> rw [e] at h <;> cases h
  · exact ⟨rfl, rfl, ⟨rfl, rfl, rfl⟩, .inl rfl⟩
  · exact ⟨rfl, rfl, ⟨rfl, rfl, rfl⟩, .inr ⟨(cfgError_eq_none.mp hc).1, n, rfl, rfl⟩⟩
  · exact ⟨rfl, rfl, ⟨rfl, rfl, rfl⟩, .inl rfl⟩
  · exact ⟨rfl, rfl, ⟨rfl, rfl, rfl⟩, .inl rfl⟩

/-- What a command under a conduct can do, if it answers a next state: what the command does, or be abandoned. -/
theorem execUnder_cases {conduct : Conduct} {i : Instr} {s t : State} (h : execUnder conduct i s = .next t) :
    exec i s = .next t ∨ (conduct = .resetting ∧ ∃ u, exec i s = .next u ∧ t = abandon s u) := by
  cases conduct with
  | proper => exact .inl h
  | overlapping => simp only [execUnder] at h; split at h; · cases h
                   · exact .inl h
  | touching => simp only [execUnder] at h; split at h; · cases h
                · exact .inl h
  | resetting =>
    simp only [execUnder, execAbandoned] at h
    split at h
    · next u hu => cases h; exact .inr ⟨rfl, u, hu, rfl⟩
    · cases h
    · cases h

/-- What one step can do, if it answers a next state. -/
theorem step_cases {s t : State} (h : step s = .next t) :
    (s.inbox = [] ∧ t = s) ∨
    (∃ rest, s.inbox = .reset :: rest ∧ t = applyReset (s.setInbox rest)) ∨
    (∃ sp i v rest, s.inbox = .writeByte sp i v :: rest ∧ i < sp.limit ∧
      t = (s.setInbox rest).setBytes sp ((s.mem.bytes sp).write i v)) ∨
    (∃ i v rest, s.inbox = .writeLabel i v :: rest ∧ i < Config.labOutLimit ∧
      t = (s.setInbox rest).setLabOut (s.mem.labOut.write i v)) ∨
    (∃ ws conduct rest i, s.inbox = .command ws conduct :: rest ∧ decode ws = .ok i ∧
      (exec i (s.setInbox rest) = .next t ∨
       (conduct = .resetting ∧ ∃ u, exec i (s.setInbox rest) = .next u ∧ t = abandon (s.setInbox rest) u))) := by
  unfold step takeNext at h
  split at h
  · next e => cases h; exact .inl ⟨e, rfl⟩
  · next ev rest e =>
    cases ev with
    | reset => cases h; exact .inr (.inl ⟨rest, e, rfl⟩)
    | writeByte sp i v =>
      simp only [takeEvent, hostWriteByte] at h
      split at h
      · next hi => cases h; exact .inr (.inr (.inl ⟨sp, i, v, rest, e, hi, rfl⟩))
      · cases h
    | writeLabel i v =>
      simp only [takeEvent, hostWriteLabel] at h
      split at h
      · next hi => cases h; exact .inr (.inr (.inr (.inl ⟨i, v, rest, e, hi, rfl⟩)))
      · cases h
    | command ws conduct =>
      simp only [takeEvent, takeCommand] at h
      split at h
      · next i hi => exact .inr (.inr (.inr (.inr ⟨ws, conduct, rest, i, e, hi, execUnder_cases h⟩)))
      · cases h

end Sys2Proof.Machine
end

