-- ==== Sys2Proof/Laws/PerInstr.lean ====
section
/-! SUPPORT. Statements about every instruction as syntax, one lemma per constructor. -/

namespace Sys2Proof.Laws

/-- The encoder writes as many words as the decoder reads from the first one's `op` (30_encoding R78). -/
def EncodedLength.Statement (i : Instr) : Prop :=
  ∃ w0 rest, encode i = w0 :: rest ∧ rest.length + 1 = descriptorLength w0

theorem EncodedLength.cfg (n : BitVec 4) : EncodedLength.Statement (.cfg n) := by
  refine ⟨_, _, rfl, ?_⟩
  rw [descriptorLength, opField_eq _ 1#2]
  · rfl
  · simp only [toNat_append_add, BitVec.toNat_ofNat]; have := n.isLt; omega

theorem EncodedLength.enc (ietype letype irank lrank : BitVec 2) (c : BitVec 8) (ih iw lh lw : BitVec 16) :
    EncodedLength.Statement (.enc ietype letype irank lrank c ih iw lh lw) := by
  refine ⟨_, _, rfl, ?_⟩
  rw [descriptorLength, opField_eq _ 2#2]
  · rfl
  · simp only [toNat_append_add, BitVec.toNat_ofNat]
    have := ietype.isLt; have := letype.isLt; have := irank.isLt; have := lrank.isLt; have := c.isLt; omega

theorem EncodedLength.dec (setype : BitVec 2) (f : BitVec 8) (ns : BitVec 32) :
    EncodedLength.Statement (.dec setype f ns) := by
  refine ⟨_, _, rfl, ?_⟩
  rw [descriptorLength, opField_eq _ 3#2]
  · rfl
  · simp only [toNat_append_add, BitVec.toNat_ofNat]; have := setype.isLt; have := f.isLt; omega

end Sys2Proof.Laws
end

