-- ==== Sys2Proof/Tests/Slice0.lean ====
section
/-! SUPPORT. The model's own tests: the well-formedness smoke test, words written out from 30_encoding, vectors of
95_test_vectors, and for every statement with hypotheses a state and operands that meet them all. -/

namespace Sys2Proof.Tests

open Sys2Proof.Machine

/-! ### Helpers -/

/-- The scenario of 42_encode R143 and 43_decode R162: pixel (200, 77, 5), label 53, sample (0, 0, 0, 201, 77, 7). -/
def demo (n : BitVec 4) (events : List HostEvent) : State where
  bitWidth := n
  mem := { imgIn := [(0, 200#8), (1, 77#8), (2, 5#8)], labIn := [(0, 53#8)], imgOut := [],
           smpIn := [(3, 201#8), (4, 77#8), (5, 7#8)], labOut := [] }
  response := none
  inbox := events
  draws := 0

/-- The demo state with another pixel and label. -/
def demoPixel (n : BitVec 4) (r g b label : Byte) : State :=
  { demo n [] with mem := { (demo n []).mem with imgIn := [(0, r), (1, g), (2, b)], labIn := [(0, label)] } }

/-- What a step leaves, if it answers a next state. -/
def after {α : Type} (o : Host.Outcome State Fault Refusal) (view : State → α) : Option α :=
  match o with
  | .next t => some (view t)
  | .fault _ => none
  | .refused _ => none

/-- The first three elements of `IMG_OUT` and the response. -/
def pixelOut (t : State) : Option Word × List Nat :=
  (t.response, (List.range 3).map fun k => (t.mem.imgOut.read k).toNat)

/-- A step that answers a next state answers some. -/
theorem next_of_exec (i : Instr) (s : State) : ∃ t, exec i s = .next t := by
  rcases exec_cases i s with ⟨k, e⟩ | ⟨n, -, -, e⟩ | ⟨_, _, _, _, _, _, _, _, _, -, -, e⟩ | ⟨_, _, _, -, -, e⟩ <;>
    exact ⟨_, e⟩

theorem labels_1x1 (n : Nat) (lab : Space 8) (h : (lab.read 0).toNat < 2 ^ (3 * n)) : LabelsBelow n 1 1 lab := by
  intro y x hy hx
  obtain rfl : y = 0 := by omega
  obtain rfl : x = 0 := by omega
  exact h

/-! ### Well-formedness smoke test: one ill-formed descriptor for each check (30_encoding R84, R78) -/

theorem test_wf_refuses_no_words : wellFormedDescriptor [] = false := by decide
theorem test_wf_refuses_op_00 : wellFormedDescriptor [0x00000002#32] = false := by decide
theorem test_wf_refuses_cfg_reserved : wellFormedDescriptor [0x40000012#32] = false := by decide
theorem test_wf_refuses_enc_reserved : wellFormedDescriptor [0x83800103#32, 0x00010001#32, 0x00010001#32] = false := by
  decide
theorem test_wf_refuses_dec_reserved : wellFormedDescriptor [0xC0000106#32, 1#32] = false := by decide
theorem test_wf_refuses_short : wellFormedDescriptor [0x83800003#32, 0x00010001#32] = false := by decide
theorem test_wf_refuses_long : wellFormedDescriptor [0x40000002#32, 0#32] = false := by decide
theorem test_wf_accepts_examples : wellFormedDescriptor [0x40000002#32] = true ∧
    wellFormedDescriptor [0x83800003#32, 0x00010001#32, 0x00010001#32] = true ∧
    wellFormedDescriptor [0xC0000006#32, 1#32] = true := by decide

/-! ### Decoding: words written out from R77, R80, R81 -/

/-- op 01, n 0b1011. -/
theorem test_decode_cfg : decode [0b01000000000000000000000000001011#32] = .ok (.cfg 11) := by decide
/-- op 10, IETYPE 01, LETYPE 10, IRANK 11, LRANK 01, C 0b00000101; IH 258, IW 3; LH 4, LW 65535. -/
theorem test_decode_enc :
    decode [0b10011011010000000000000000000101#32, 0b00000001000000100000000000000011#32,
      0b00000000000001001111111111111111#32] = .ok (.enc 1 2 3 1 5 258 3 4 65535) := by decide
/-- op 11, SETYPE 10, F 0b10000111; NS 0x80000001. -/
theorem test_decode_dec :
    decode [0b11100000000000000000000010000111#32, 0x80000001#32] = .ok (.dec 2 135 0x80000001) := by decide
theorem test_decode_rejects_by_name :
    decode [] = .error .noWords ∧ decode [0x3FFFFFFF#32] = .error .reservedOp ∧
    decode [0x60000002#32] = .error .reservedBits ∧ decode [0xC0000006#32] = .error .wrongLength := by decide
theorem test_table_word :
    decodeTableWord 32 0x4000000F = some (.cfg 15) ∧ decodeTableWord 32 0x83800003 = some (.enc 0 0 3 2 3 0 0 0 0) ∧
    decodeTableWord 96 0x000100020003000483800003 = some (.enc 0 0 3 2 3 3 4 1 2) ∧
    decodeTableWord 64 0x00000005D0000006 = some (.dec 1 6 5) := by decide
/-- A presented table word runs first after reset: CFG 3 (95 part 2.2). -/
theorem test_fetch_word : after (step (State.reset.withFetchWord 32 0x40000003)) (fun t => (t.bitWidth, t.response)) =
    some (3#4, some 0#32) := by decide

/-! ### One step each (95_test_vectors parts 2.2 to 2.6) -/

theorem test_cfg_sets : after (exec (.cfg 2) State.reset) (fun t => (t.bitWidth, t.classBits, t.response)) =
    some (2#4, 6#6, some 0#32) := by decide
theorem test_cfg_twice : after (exec (.cfg 2) (demo 2 [])) (fun t => (t.bitWidth, t.response)) =
    some (2#4, some 1#32) := by decide
/-- Label 53 gives R-field 1, G-field 1, B-field 3, not the reverse (R143, R241). -/
theorem test_enc_scenario : after (exec (Instr.encShort 1 1) (demo 2 [])) pixelOut =
    some (some 0#32, [201, 77, 7]) := by decide
/-- Row N = 5, pixel (18, 52, 86), label 37. -/
theorem test_enc_wide : after (exec (Instr.encShort 1 1) (demoPixel 5 18 52 86 37)) pixelOut =
    some (some 0#32, [5, 33, 64]) := by decide
theorem test_dec_scenario : after (exec (Instr.decShort 1) (demo 2 [])) (fun t => (t.response, t.mem.labOut)) =
    some (some 0#32, [(0, 53#38)]) := by decide
/-- Row (201, 77, 7), N = 15. -/
theorem test_dec_wide : after (exec (Instr.decShort 1) (demo 15 [])) (fun t => t.mem.labOut) =
    some [(0, 7518716105#38)] := by decide
/-- The helper table of part 2.1: field at n = 3, L = 100; pack_channel at n = 7; join at n = 3. -/
theorem test_helpers : field 3 100 0 = 4 ∧ field 3 100 1 = 4 ∧ field 3 100 2 = 1 ∧ packChannel 7 170 127 = 255 ∧
    join 3 1 5 7 = 489 ∧ mask8 9 = 255 ∧ mask 9 = 511 := by decide

/-! ### Witnesses: a state and operands that meet all hypotheses of a statement -/

theorem witness_ResetLeavesTheCodecUnconfigured : ∃ (s : State) (rest : List HostEvent), s.inbox = .reset :: rest :=
  ⟨demo 2 [.reset], [], rfl⟩

theorem witness_StepRunsTheDecodedCommand : ∃ (s : State) (words : List Word) (rest : List HostEvent) (i : Instr),
    s.inbox = .command words .proper :: rest ∧ decode words = .ok i :=
  ⟨demo 0 [.command [0x40000002#32] .proper], [0x40000002#32], [], .cfg 2, rfl, by decide⟩

theorem witness_IdleCodecKeepsEverything : ∃ s : State, s.inbox = [] := ⟨demo 2 [], rfl⟩

theorem witness_OnlyResetAndFirstCfgChangeTheBitWidth :
    (∃ s t : State, step s = .next t ∧ t.bitWidth ≠ s.bitWidth ∧ s.inbox = [.reset]) ∧
    (∃ s t : State, step s = .next t ∧ t.bitWidth ≠ s.bitWidth ∧ s.inbox = [.command [0x40000002#32] .resetting]) ∧
    (∃ s t : State, step s = .next t ∧ t.bitWidth ≠ s.bitWidth ∧ s.bitWidth = 0#4) := by
  refine ⟨⟨demo 2 [.reset], _, rfl, by decide, rfl⟩, ⟨demo 2 [.command [0x40000002#32] .resetting], _, rfl, by decide, rfl⟩,
    ⟨demo 0 [.command [0x40000002#32] .proper], _, rfl, by decide, rfl⟩⟩

theorem witness_ResetInFlightAbandonsTheCommand :
    ∃ (s : State) (words : List Word) (rest : List HostEvent) (i : Instr),
      s.inbox = .command words .resetting :: rest ∧ decode words = .ok i :=
  ⟨demo 2 [.command [0xC0000006#32, 1#32] .resetting], [0xC0000006#32, 1#32], [], .dec 0 6 1, rfl, by decide⟩

theorem witness_MisusedSpacesAreRefused :
    (∃ (s : State) (words : List Word) (rest : List HostEvent) (i : Instr), decode words = .ok i ∧
      s.inbox = .command words .overlapping :: rest ∧ ∀ n, i ≠ .cfg n) ∧
    (∃ (s : State) (words : List Word) (rest : List HostEvent) (i : Instr), decode words = .ok i ∧
      s.inbox = .command words .overlapping :: rest ∧ ∃ n, i = .cfg n) ∧
    (∃ (s : State) (words : List Word) (rest : List HostEvent) (i : Instr), decode words = .ok i ∧
      s.inbox = .command words .touching :: rest ∧ ∀ n, i ≠ .cfg n) ∧
    (∃ (s : State) (words : List Word) (rest : List HostEvent) (i : Instr), decode words = .ok i ∧
      s.inbox = .command words .touching :: rest ∧ ∃ n, i = .cfg n) :=
  ⟨⟨demo 2 [.command [0xC0000006#32, 1#32] .overlapping], _, [], .dec 0 6 1, by decide, rfl, by simp⟩,
    ⟨demo 0 [.command [0x40000002#32] .overlapping], _, [], .cfg 2, by decide, rfl, 2, rfl⟩,
    ⟨demo 2 [.command [0xC0000006#32, 1#32] .touching], _, [], .dec 0 6 1, by decide, rfl, by simp⟩,
    ⟨demo 0 [.command [0x40000002#32] .touching], _, [], .cfg 2, by decide, rfl, 2, rfl⟩⟩

/-- The last element that exists and the first that does not, in every space. -/
theorem witness_HostWritesOneElement :
    (∀ sp : ByteSpace, ∃ (s : State) (i : Nat) (v : Byte) (rest : List HostEvent),
      s.inbox = .writeByte sp i v :: rest ∧ i < sp.limit ∧ i + 1 = sp.limit) ∧
    (∀ sp : ByteSpace, ∃ (s : State) (i : Nat) (v : Byte) (rest : List HostEvent),
      s.inbox = .writeByte sp i v :: rest ∧ i = sp.limit) ∧
    (∃ (s : State) (i : Nat) (v : LabelWord) (rest : List HostEvent),
      s.inbox = .writeLabel i v :: rest ∧ i < 2 ^ 32 - 1) ∧
    (∃ (s : State) (i : Nat) (v : LabelWord) (rest : List HostEvent),
      s.inbox = .writeLabel i v :: rest ∧ 2 ^ 32 - 1 ≤ i) := by
  refine ⟨fun sp => ⟨demo 2 [.writeByte sp (sp.limit - 1) 7#8], sp.limit - 1, 7#8, [], rfl, ?_⟩,
    fun sp => ⟨demo 2 [.writeByte sp sp.limit 7#8], sp.limit, 7#8, [], rfl, rfl⟩,
    ⟨demo 2 [.writeLabel 4294967294 7#38], _, _, _, rfl, by decide⟩,
    ⟨demo 2 [.writeLabel 4294967295 7#38], _, _, _, rfl, by decide⟩⟩
  cases sp <;> decide

theorem witness_EveryStepKeepsTheInvariant : ∃ s t : State, s.Inv ∧ step s = .next t :=
  ⟨demo 2 [.reset], _, by decide, rfl⟩

theorem witness_DutifulHostIsNeverStopped : ∃ s : State, s.Inv ∧ s.hostDutiful = true ∧ s.inbox ≠ [] :=
  ⟨demo 0 [.command [0x40000002#32] .proper, .writeByte .labIn 0 7#8, .reset], by decide, by decide, by decide⟩

theorem witness_EveryRunEndsWithTheLastEvent : ∃ s : State, s.hostDutiful = true ∧ s.inbox.length = 2 :=
  ⟨demo 2 [.command [0xC0000006#32, 1#32] .resetting, .writeLabel 0 7#38], by decide, by decide⟩

theorem witness_EncodeReadsBackEveryDecoding : ∃ (words : List Word) (i : Instr), decode words = .ok i :=
  ⟨[0x40000002#32], .cfg 2, by decide⟩

theorem witness_ReservedEncodingsAreRefused :
    (∃ w0 : Word, w0.extractLsb' 30 2 = 0#2) ∧
    (∃ w0 : Word, w0.extractLsb' 30 2 = 1#2 ∧ w0.extractLsb' 4 26 ≠ 0#26) ∧
    (∃ w0 : Word, w0.extractLsb' 30 2 = 2#2 ∧ w0.extractLsb' 8 14 ≠ 0#14) ∧
    (∃ w0 : Word, w0.extractLsb' 30 2 = 3#2 ∧ w0.extractLsb' 8 20 ≠ 0#20) ∧
    ∃ (s : State) (w0 : Word) (more : List Word) (conduct : Conduct) (rest : List HostEvent),
      s.inbox = .command (w0 :: more) conduct :: rest ∧ w0.extractLsb' 30 2 = 0#2 :=
  ⟨⟨0x3FFFFFFF#32, by decide⟩, ⟨0x40000010#32, by decide⟩, ⟨0x80200000#32, by decide⟩, ⟨0xC8000000#32, by decide⟩,
    ⟨demo 2 [.command [0#32] .proper], 0#32, [], .proper, [], rfl, by decide⟩⟩

theorem witness_LengthComesFromTheOpAlone :
    (∃ i, decode [0x40000002#32] = .ok i) ∧ (∃ i, decode [0x83800003#32, 0#32, 0#32] = .ok i) ∧
    (∃ i, decode [0xC0000006#32, 0#32] = .ok i) :=
  ⟨⟨.cfg 2, by decide⟩, ⟨.enc 0 0 3 2 3 0 0 0 0, by decide⟩, ⟨.dec 0 6 0, by decide⟩⟩

/-- Each error kind is the first whose condition holds somewhere, and somewhere no condition holds. -/
theorem witness_TheFirstFailingCheckIsReported :
    (∀ k : ErrorKind, ∃ (i : Instr) (s : State), raisedWhen k i s ∧
      ∀ k' : ErrorKind, k'.rank < k.rank → ¬ raisedWhen k' i s) ∧
    ∃ (i : Instr) (s : State), ∀ k : ErrorKind, ¬ raisedWhen k i s := by
  refine ⟨fun k => ?_, .cfg 2, demo 0 [], fun k => by cases k <;> simp [raisedWhen, demo]⟩
  cases k
  · exact ⟨.cfg 0, demo 0 [], by simp [raisedWhen], fun k' => by cases k' <;> simp [ErrorKind.rank]⟩
  · exact ⟨.dec 0 5 1, demo 2 [], by simp [raisedWhen], fun k' => by
      cases k' <;> simp [ErrorKind.rank, raisedWhen, demo]⟩
  · refine ⟨.enc 0 0 3 2 3 1 1 1 1, demo 1 [], ⟨0, 0, by decide, by decide, by decide⟩, fun k' => ?_⟩
    cases k' <;> simp [ErrorKind.rank, raisedWhen, demo]
  · exact ⟨.dec 1 5 1, demo 2 [], by simp [raisedWhen], fun k' => by
      cases k' <;> simp [ErrorKind.rank, raisedWhen, demo]⟩

theorem witness_FailedCommandChangesNothing : ∃ (i : Instr) (s t : State) (k : ErrorKind),
    exec i s = .next t ∧ t.response = some (Status.word (.error k)) :=
  ⟨.dec 0 5 1, demo 2 [], _, .shapeMismatchError, rfl, by decide⟩

theorem witness_StatusesAreThoseOfTheTable :
    (∃ n s t, exec (.cfg n) s = .next t ∧ t.response = some (Status.word .ok)) ∧
    (∃ ie le ir lr c ih iw lh lw s t, exec (.enc ie le ir lr c ih iw lh lw) s = .next t ∧
      t.response = some (Status.word (.error .rangeError))) ∧
    (∃ tag f ns s t, exec (.dec tag f ns) s = .next t ∧ t.response = some (Status.word (.error .typeError))) :=
  ⟨⟨2, demo 0 [], _, rfl, by decide⟩, ⟨0, 0, 3, 2, 3, 1, 1, 1, 1, demo 1 [], _, rfl, by decide⟩,
    ⟨1, 6, 1, demo 2 [], _, rfl, by decide⟩⟩

theorem witness_RepeatingACommandChangesNothing : ∃ (i : Instr) (s t : State),
    (∀ n, i ≠ .cfg n) ∧ exec i s = .next t ∧ t.response = some 0#32 :=
  ⟨.dec 0 6 1, demo 2 [], _, by simp, rfl, by decide⟩

theorem witness_CfgSetsTheBitWidthOnce : (∃ (s : State) (n : BitVec 4), s.bitWidth = 0#4 ∧ n ≠ 0#4 ∧ n = 1#4) ∧
    ∃ (s : State) (n : BitVec 4), s.bitWidth = 0#4 ∧ n ≠ 0#4 ∧ n = 15#4 :=
  ⟨⟨demo 0 [], 1#4, rfl, by decide, rfl⟩, ⟨demo 0 [], 15#4, rfl, by decide, rfl⟩⟩

theorem witness_CfgOnAConfiguredCodecFails : ∃ s : State, s.bitWidth ≠ 0#4 := ⟨demo 2 [], by decide⟩

theorem witness_EncPacksEveryLabel : ∃ (s : State) (h w : BitVec 16), s.bitWidth ≠ 0#4 ∧
    LabelsBelow s.n h.toNat w.toNat s.mem.labIn ∧ h ≠ 0 ∧ w ≠ 0 :=
  ⟨demo 2 [], 1, 1, by decide, labels_1x1 _ _ (by decide), by decide, by decide⟩

/-- One state and operands for each of the four clauses. -/
theorem witness_EncReportsEachFailingCheck :
    (demo 0 []).bitWidth = 0#4 ∧ ((demo 2 []).bitWidth ≠ 0#4 ∧ ((1#2 : BitVec 2) ≠ 0#2)) ∧
    ((demo 2 []).bitWidth ≠ 0#4 ∧ ((4#8 : BitVec 8) ≠ 3#8)) ∧
    ((demo 1 []).bitWidth ≠ 0#4 ∧ ∃ y x, y < (1#16).toNat ∧ x < (1#16).toNat ∧
      2 ^ (3 * (demo 1 []).n) ≤ ((demo 1 []).mem.labIn.read (labIndex (1#16).toNat y x)).toNat) :=
  ⟨by decide, ⟨by decide, by decide⟩, ⟨by decide, by decide⟩, by decide, 0, 0, by decide, by decide, by decide⟩

/-- At both widths, and at a width where RangeError never occurs. -/
theorem witness_RangeErrorOnlyAtNarrowWidths :
    (∃ s t : State, s.bitWidth ≠ 0#4 ∧ exec (.enc 0 0 3 2 3 1 1 1 1) s = .next t ∧ s.bitWidth = 1#4 ∧
      t.response = some 3#32) ∧
    (∃ s t : State, s.bitWidth ≠ 0#4 ∧ exec (.enc 0 0 3 2 3 1 1 1 1) s = .next t ∧ s.bitWidth = 2#4 ∧
      t.response = some 3#32) ∧
    ∃ s t : State, s.bitWidth ≠ 0#4 ∧ exec (.enc 0 0 3 2 3 1 1 1 1) s = .next t ∧ s.bitWidth = 3#4 ∧
      t.response = some 0#32 :=
  ⟨⟨demoPixel 1 0 0 0 8, _, by decide, rfl, rfl, by decide⟩, ⟨demoPixel 2 0 0 0 64, _, by decide, rfl, rfl, by decide⟩,
    ⟨demoPixel 3 0 0 0 255, _, by decide, rfl, rfl, by decide⟩⟩

theorem witness_EncKeepsHighBitsAndReplacesLowBits : ∃ (s t : State) (h w : BitVec 16) (c y x : Nat),
    exec (.enc 0 0 3 2 3 h w h w) s = .next t ∧ t.response = some 0#32 ∧ c < 3 ∧ y < h.toNat ∧ x < w.toNat :=
  ⟨demo 2 [], _, 1, 1, 2, 0, 0, rfl, by decide, by decide, by decide, by decide⟩

theorem witness_EncDistortionIsBounded : ∃ (s t : State) (h w : BitVec 16) (c y x : Nat),
    exec (.enc 0 0 3 2 3 h w h w) s = .next t ∧ t.response = some 0#32 ∧ s.n ≤ 8 ∧ c < 3 ∧ y < h.toNat ∧ x < w.toNat :=
  ⟨demo 8 [], _, 1, 1, 2, 0, 0, rfl, by decide, by decide, by decide, by decide, by decide⟩

theorem witness_EncIsThePseudocodesLoop : ∃ (s t : State) (h w : BitVec 16), s.mem.imgOut.wf ∧
    exec (.enc 0 0 3 2 3 h w h w) s = .next t ∧ t.response = some 0#32 :=
  ⟨demo 2 [], _, 1, 1, by decide, rfl, by decide⟩

theorem witness_EncOfAnEmptyImageWritesNothing :
    (∃ (s : State) (h w : BitVec 16), s.bitWidth ≠ 0#4 ∧ h = 0#16 ∧ w = 5#16) ∧
    ∃ (s : State) (h w : BitVec 16), s.bitWidth ≠ 0#4 ∧ h = 5#16 ∧ w = 0#16 :=
  ⟨⟨demo 2 [], 0, 5, by decide, rfl, rfl⟩, ⟨demo 2 [], 5, 0, by decide, rfl, rfl⟩⟩

/-- Label 0, and the maximum label at both bit widths. -/
theorem witness_BoundaryLabelsClearOrSetTheLowBits :
    (∃ s t : State, exec (.enc 0 0 3 2 3 1 1 1 1) s = .next t ∧ t.response = some 0#32 ∧
      (s.mem.labIn.read (labIndex 1 0 0)).toNat = 0) ∧
    (∃ s t : State, exec (.enc 0 0 3 2 3 1 1 1 1) s = .next t ∧ t.response = some 0#32 ∧ s.bitWidth = 1#4 ∧
      (s.mem.labIn.read (labIndex 1 0 0)).toNat = 2 ^ (3 * s.n) - 1) ∧
    ∃ s t : State, exec (.enc 0 0 3 2 3 1 1 1 1) s = .next t ∧ t.response = some 0#32 ∧ s.bitWidth = 2#4 ∧
      (s.mem.labIn.read (labIndex 1 0 0)).toNat = 2 ^ (3 * s.n) - 1 :=
  ⟨⟨demoPixel 2 255 255 255 0, _, rfl, by decide, by decide⟩, ⟨demoPixel 1 0 0 0 7, _, rfl, by decide, rfl, by decide⟩,
    ⟨demoPixel 2 0 0 0 63, _, rfl, by decide, rfl, by decide⟩⟩

/-- The overwrite of part 2.7: 53 into (200, 77, 5) gives (201, 77, 7); then 5 into that, and 5 into the original. -/
theorem witness_EncOverwritesAnEarlierLabel : ∃ (s t u v u' v' : State) (h w : BitVec 16),
    exec (.enc 0 0 3 2 3 h w h w) s = .next t ∧ t.response = some 0#32 ∧
    u.bitWidth = s.bitWidth ∧ v.bitWidth = s.bitWidth ∧
    AgreeBelow (3 * h.toNat * w.toNat) u.mem.imgIn t.mem.imgOut ∧
    AgreeBelow (3 * h.toNat * w.toNat) v.mem.imgIn s.mem.imgIn ∧
    AgreeBelow (h.toNat * w.toNat) u.mem.labIn v.mem.labIn ∧
    exec (.enc 0 0 3 2 3 h w h w) u = .next u' ∧ exec (.enc 0 0 3 2 3 h w h w) v = .next v' ∧
    u'.response = some 0#32 :=
  ⟨demo 2 [], _, demoPixel 2 201 77 7 5, demoPixel 2 200 77 5 5, _, _, 1, 1, rfl, by decide, rfl, rfl,
    by unfold AgreeBelow; decide, by unfold AgreeBelow; decide, by unfold AgreeBelow; decide, rfl, rfl, by decide⟩

theorem witness_EncDependsOnItsInputsAlone : ∃ (s s' t t' : State), s.bitWidth = s'.bitWidth ∧
    AgreeBelow (3 * (1#16).toNat * (1#16).toNat) s.mem.imgIn s'.mem.imgIn ∧
    AgreeBelow ((1#16).toNat * (1#16).toNat) s.mem.labIn s'.mem.labIn ∧
    exec (.enc 0 0 3 2 3 1 1 1 1) s = .next t ∧ exec (.enc 0 0 3 2 3 1 1 1 1) s' = .next t' ∧
    t.response = some 0#32 :=
  ⟨demo 2 [], demo 2 [.reset], _, _, rfl, fun _ _ => rfl, fun _ _ => rfl, rfl, rfl, by decide⟩

theorem witness_DecJoinsTheLowBits : ∃ (s : State) (ns : BitVec 32), s.bitWidth ≠ 0#4 ∧ ns ≠ 0 :=
  ⟨demo 2 [], 1, by decide, by decide⟩

/-- One state and operands for each of the three clauses. -/
theorem witness_DecReportsEachFailingCheck :
    (demo 0 []).bitWidth = 0#4 ∧ ((demo 2 []).bitWidth ≠ 0#4 ∧ (1#2 : BitVec 2) ≠ 0#2) ∧
    ((demo 2 []).bitWidth ≠ 0#4 ∧ (0#2 : BitVec 2) = 0#2 ∧ (7#8 : BitVec 8) ≠ 6#8) := by decide

/-- 201, 77, 7 in record 0 and 1, 1, 3 in record 1 agree in bits [1:0] (43_decode R161). -/
theorem witness_DecDependsOnTheLowBitsAlone : ∃ (s s' t t' : State) (ns ns' : BitVec 32) (i j : Nat),
    s.bitWidth = s'.bitWidth ∧ exec (.dec 0 6 ns) s = .next t ∧ exec (.dec 0 6 ns') s' = .next t' ∧
    t.response = some 0#32 ∧ i < ns.toNat ∧ j < ns'.toNat ∧ i ≠ j ∧
    ∀ f, f = 3 ∨ f = 4 ∨ f = 5 →
      (s.mem.smpIn.read (smpIndex i f)).toNat % 2 ^ s.n = (s'.mem.smpIn.read (smpIndex j f)).toNat % 2 ^ s.n := by
  refine ⟨demo 2 [], { demo 2 [] with mem := { (demo 2 []).mem with smpIn := [(0, 9#8), (9, 1#8), (10, 1#8), (11, 3#8)] } },
    _, _, 1, 2, 0, 1, rfl, rfl, rfl, by decide, by decide, by decide, by decide, ?_⟩
  rintro f (rfl | rfl | rfl) <;> decide

theorem witness_DecodedLabelsAreBounded : ∃ (s t : State) (ns : BitVec 32) (i : Nat),
    exec (.dec 0 6 ns) s = .next t ∧ t.response = some 0#32 ∧ i < ns.toNat ∧ s.n ≤ 2 ∧ s.n ≤ 8 :=
  ⟨demo 2 [], _, 1, 0, rfl, by decide, by decide, by decide, by decide⟩

theorem witness_DecOfNoRecordsWritesNothing : ∃ s : State, s.bitWidth ≠ 0#4 := ⟨demo 2 [], by decide⟩

theorem witness_DecIsThePseudocodesLoop : ∃ (s t : State) (ns : BitVec 32), s.mem.labOut.wf ∧
    exec (.dec 0 6 ns) s = .next t ∧ t.response = some 0#32 :=
  ⟨demo 2 [], _, 1, by decide, rfl, by decide⟩

theorem witness_FlattenCarriesThePixels : ∃ (h w : Nat) (xyz : List (Byte × Byte × Byte)) (i : Nat),
    i < h * w ∧ i < xyz.length := ⟨2, 2, [(1, 2, 3)], 0, by decide, by decide⟩

/-- The hypotheses of both parts: labels in range, and a state that carries the encoded pixels. -/
theorem witness_DecodingTheEncodedImageRecoversTheLabels : ∃ (s t u : State) (h w : BitVec 16), s.bitWidth ≠ 0#4 ∧
    LabelsBelow s.n h.toNat w.toNat s.mem.labIn ∧ exec (.enc 0 0 3 2 3 h w h w) s = .next t ∧
    u.bitWidth = s.bitWidth ∧ CarriesPixels h.toNat w.toNat t.mem.imgOut u.mem.smpIn := by
  refine ⟨demo 2 [], _, demo 2 [], 1, 1, by decide, labels_1x1 _ _ (by decide), rfl, rfl, fun y x hy hx => ?_⟩
  obtain rfl : y = 0 := by simpa using hy
  obtain rfl : x = 0 := by simpa using hx
  decide

/-- (170, 85, 240) decodes to 6 at N = 2 (part 2.7). -/
theorem witness_ReencodingTheDecodedLabelsKeepsTheImage : ∃ (s t u : State) (h w : BitVec 16),
    (s.bitWidth = 1#4 ∨ s.bitWidth = 2#4) ∧ CarriesPixels h.toNat w.toNat s.mem.imgIn s.mem.smpIn ∧
    exec (.dec 0 6 (BitVec.ofNat 32 (h.toNat * w.toNat))) s = .next t ∧ u.bitWidth = s.bitWidth ∧
    AgreeBelow (3 * h.toNat * w.toNat) u.mem.imgIn s.mem.imgIn ∧
    ∀ k, k < h.toNat * w.toNat → (u.mem.labIn.read k).toNat = (t.mem.labOut.read k).toNat := by
  refine ⟨{ demoPixel 2 170 85 240 0 with
      mem := { (demoPixel 2 170 85 240 0).mem with smpIn := [(3, 170#8), (4, 85#8), (5, 240#8)] } },
    _, demoPixel 2 170 85 240 6, 1, 1, .inr rfl, fun y x hy hx => ?_, rfl, rfl, fun _ _ => rfl, fun k hk => ?_⟩
  · obtain rfl : y = 0 := by simpa using hy
    obtain rfl : x = 0 := by simpa using hx
    decide
  · obtain rfl : k = 0 := by simpa using hk
    decide

/-- Bytes and fields at their ends, for the narrowest width and for one wider than a byte. -/
theorem witness_PackingAndExtractingAreInverse :
    (∃ n v f : Nat, 1 ≤ n ∧ v ≤ 255 ∧ f < 2 ^ n ∧ f ≤ 255 ∧ n = 1 ∧ f = 1 ∧ v = 255) ∧
    (∃ n v f : Nat, 1 ≤ n ∧ v ≤ 255 ∧ f < 2 ^ n ∧ f ≤ 255 ∧ n = 9 ∧ f = 255) ∧
    (∃ n label : Nat, 1 ≤ n ∧ inRange n label = true ∧ label ≤ 255 ∧ n = 2 ∧ label = 63) :=
  ⟨⟨1, 255, 1, by decide⟩, ⟨9, 255, 255, by decide⟩, ⟨2, 63, by decide⟩⟩

/-- Both clauses on n meet at 8, where they agree. -/
theorem witness_MaskFormsAgreeWithDivAndMod :
    (∃ n v f : Nat, 1 ≤ n ∧ v ≤ 255 ∧ n ≤ 8 ∧ f < 2 ^ n ∧ f ≤ 255 ∧ n = 8 ∧ f = 255) ∧
    (∃ n v f : Nat, 1 ≤ n ∧ v ≤ 255 ∧ 8 ≤ n ∧ f < 2 ^ n ∧ f ≤ 255 ∧ n = 8 ∧ f = 255) ∧ mask8 8 = mask 8 ∧ mask8 8 = 255 :=
  ⟨⟨8, 255, 255, by decide⟩, ⟨8, 255, 255, by decide⟩, by decide⟩

theorem witness_FieldsAreSuccessiveRemainders :
    (∃ n label c : Nat, 1 ≤ n ∧ c < 3 ∧ label ≤ 255 ∧ c = 2 ∧ label = 255) ∧ ∃ z : Int, z < 0 :=
  ⟨⟨1, 255, 2, by decide⟩, -1, by decide⟩

theorem witness_NoResultOverflows :
    (∃ n v f : Nat, 1 ≤ n ∧ v ≤ 255 ∧ f < 2 ^ n ∧ f ≤ 255 ∧ v = 255 ∧ f = 255) ∧
    ∃ n r g b : Nat, 1 ≤ n ∧ r ≤ 255 ∧ g ≤ 255 ∧ b ≤ 255 ∧ n ≤ 15 ∧ n = 15 ∧ b = 255 :=
  ⟨⟨8, 255, 255, by decide⟩, 15, 255, 255, 255, by decide⟩

theorem witness_SamplesCarryEveryLabelInRange :
    (∃ n r g b : Nat, 1 ≤ n ∧ r ≤ 255 ∧ g ≤ 255 ∧ b ≤ 255 ∧ 8 < n ∧ n = 9) ∧
    ∃ n label : Nat, 1 ≤ n ∧ n ≤ 8 ∧ label < 2 ^ (3 * n) ∧ n = 8 ∧ label = 2 ^ 24 - 1 :=
  ⟨⟨9, 255, 255, 255, by decide⟩, 8, 2 ^ 24 - 1, by decide⟩

theorem witness_WideBitWidthsReplaceWholeBytes :
    (∃ n label r g b : Nat, label ≤ 255 ∧ 8 ≤ n ∧ r ≤ 255 ∧ g ≤ 255 ∧ b ≤ 255 ∧ n = 8 ∧ label = 255) ∧
    (∃ n label : Nat, label ≤ 255 ∧ 4 ≤ n ∧ n ≤ 7 ∧ n = 4 ∧ label = 255) ∧
    (∃ n label : Nat, label ≤ 255 ∧ 4 ≤ n ∧ n ≤ 7 ∧ n = 7 ∧ label = 255) ∧
    ∃ n label : Nat, label ≤ 255 ∧ n = 3 ∧ 3 ≤ n ∧ label = 255 :=
  ⟨⟨8, 255, 255, 255, 255, by decide⟩, ⟨4, 255, by decide⟩, ⟨7, 255, by decide⟩, 3, 255, by decide⟩

end Sys2Proof.Tests
end

/-! The codec's state (10_state): what a step on a presented event is, when a command changes the bit width, that a
command does not see an earlier response, and `CLASSBITS`. The proofs of the statements about `10_state` follow. -/

namespace Sys2Proof.Machine

/-! ### The step on a presented event -/

theorem step_of_inbox_cons {s : State} {e : HostEvent} {rest : List HostEvent} (h : s.inbox = e :: rest) :
    step s = takeEvent e (s.setInbox rest) := by
  simp only [step, takeNext, h]

theorem takeEvent_reset (s : State) : takeEvent .reset s = .next (applyReset s) := rfl

/-! ### CLASSBITS -/

/-- The 6 bits of `CLASSBITS` hold `3*N`, which is at most 45 (10_state R22). -/
theorem State.classBits_toNat (s : State) : s.classBits.toNat = 3 * s.n := by
  have hn : 3 * s.n < 2 ^ 6 := by have := s.n_lt; omega
  exact Nat.mod_eq_of_lt hn

theorem State.classBits_reset : State.reset.classBits = 0#6 := rfl

/-! ### The one command that changes the bit width -/

theorem Status.word_ok : Status.word .ok = 0#32 := rfl

/-- A command that changes the bit width is a `CFG` that returns OK on an unconfigured codec (10_state R23):
an error keeps the bit width, and so do the effects of `ENC` and `DEC`. -/
theorem exec_changes_bitWidth {i : Instr} {s t : State} (h : exec i s = .next t) (hne : t.bitWidth ≠ s.bitWidth) :
    s.bitWidth = 0#4 ∧ ∃ n, i = .cfg n ∧ t.bitWidth = n ∧ t.response = some 0#32 := by
  rcases exec_cases i s with ⟨k, e⟩ | ⟨n, hi, hc, e⟩ | ⟨ie, le, ir, lr, c, ih, iw, lh, lw, -, -, e⟩ |
    ⟨tag, f, ns, -, -, e⟩ <;> rw [e] at h <;> cases h
  · exact absurd (raise_bitWidth s k) hne
  · have hzero : s.bitWidth = 0#4 := (cfgError_eq_none.mp hc).1
    exact ⟨hzero, n, hi, rfl, congrArg some Status.word_ok⟩
  · exact absurd (encEffect_bitWidth ih.toNat iw.toNat s) hne
  · exact absurd (decEffect_bitWidth ns.toNat s) hne

/-! ### An earlier response -/

/-- The end of a command overwrites the response, so an effect that only carries the response along loses it. -/
theorem finish_forgets_response (found : Option ErrorKind) {effect : State → State} {s : State} {r : Option Word}
    (h : effect { s with response := r } = { effect s with response := r }) :
    finish found effect { s with response := r } = finish found effect s := by
  cases found with
  | some k => rfl
  | none => rw [finish_none, finish_none, h]; rfl

/-! ### The statements -/

/-- Settles O4: each branch of `step_cases` keeps the bit width, is a reset, or is a command, where
`exec_changes_bitWidth` says which. -/
theorem onlyResetAndFirstCfgChangeTheBitWidth : Obligations.OnlyResetAndFirstCfgChangeTheBitWidth := by
  intro s t hstep hne
  rcases step_cases hstep with ⟨-, rfl⟩ | ⟨rest, hin, rfl⟩ | ⟨sp, i, v, rest, -, -, rfl⟩ | ⟨i, v, rest, -, -, rfl⟩ |
    ⟨words, conduct, rest, i, hin, hdec, hexec | ⟨rfl, u, -, rfl⟩⟩
  · exact absurd rfl hne
  · exact .inl ⟨applyReset_bitWidth _, .inl ⟨rest, hin⟩⟩
  · exact absurd (State.setBytes_bitWidth _ _ _) hne
  · exact absurd (State.setLabOut_bitWidth _ _) hne
  · obtain ⟨hzero, n, rfl, hn, hok⟩ := exec_changes_bitWidth hexec hne
    exact .inr ⟨hzero, words, conduct, rest, n, hin, hdec, hn, hok⟩
  · exact .inl ⟨abandon_bitWidth _ _, .inr ⟨words, rest, hin⟩⟩

/-- Settles O1: the reset state's fields, and the step that takes a reset event. -/
theorem resetLeavesTheCodecUnconfigured : Obligations.ResetLeavesTheCodecUnconfigured := by
  refine ⟨rfl, State.classBits_reset, rfl, fun s rest hin => ?_⟩
  calc step s = takeEvent .reset (s.setInbox rest) := step_of_inbox_cons hin
    _ = .next (applyReset (s.setInbox rest)) := takeEvent_reset _
    _ = .next { s with inbox := rest, bitWidth := 0#4, response := none } := rfl

/-- Settles O23: no check reads the response, each effect carries it along, and the command's end overwrites it. -/
theorem earlierOutcomesDoNotMatter : Obligations.EarlierOutcomesDoNotMatter := by
  intro i s r
  cases i with
  | cfg n => exact congrArg Host.Outcome.next (finish_forgets_response (cfgError s.bitWidth n) rfl)
  | enc ie le ir lr c ih iw lh lw =>
    exact congrArg Host.Outcome.next
      (finish_forgets_response (encError s.bitWidth s.mem.labIn ie le ir lr c ih iw lh lw) rfl)
  | dec tag f ns => exact congrArg Host.Outcome.next (finish_forgets_response (decError s.bitWidth tag f) rfl)

/-- Settles O29: `3*N` fits in 6 bits. -/
theorem classBitsIsThreeTimesTheBitWidth : Obligations.ClassBitsIsThreeTimesTheBitWidth :=
  ⟨State.classBits_toNat, State.classBits_reset⟩

end Sys2Proof.Machine

/-! The buffer spaces (20_memory): a presented command is run or refused as the host treats its spaces, an `ENC` or `DEC`
can be repeated, an `ENC` and a `DEC` can be exchanged, `ENC` reads its declared shapes alone, and what `flatten` puts
into a record. The proofs of the statements about `20_memory` follow. -/

namespace Sys2Proof.Machine

/-! ### The step on a presented command -/

theorem takeEvent_command {words : List Word} {i : Instr} (conduct : Conduct) (s : State) (h : decode words = .ok i) :
    takeEvent (.command words conduct) s = execUnder conduct i s := by
  simp only [takeEvent, takeCommand, h]

theorem step_of_inbox_command {s : State} {words : List Word} {conduct : Conduct} {rest : List HostEvent} {i : Instr}
    (hin : s.inbox = .command words conduct :: rest) (hdec : decode words = .ok i) :
    step s = execUnder conduct i (s.setInbox rest) :=
  (step_of_inbox_cons hin).trans (takeEvent_command conduct _ hdec)

@[simp] theorem execUnder_proper (i : Instr) (s : State) : execUnder .proper i s = exec i s := rfl

/-- `CFG` is the one command that is given no space (20_memory R49, R64). -/
theorem usesSpaces_of_ne_cfg {i : Instr} (h : ∀ n, i ≠ .cfg n) : usesSpaces i = true := by
  cases i with
  | cfg n => exact absurd rfl (h n)
  | enc ie le ir lr c ih iw lh lw => rfl
  | dec tag f ns => rfl

theorem execUnder_overlapping {i : Instr} (s : State) (h : usesSpaces i = true) :
    execUnder .overlapping i s = .refused .overlappingSpaces := by
  simp only [execUnder, h, if_true]

theorem execUnder_touching {i : Instr} (s : State) (h : usesSpaces i = true) :
    execUnder .touching i s = .refused .touchedInFlight := by
  simp only [execUnder, h, if_true]

@[simp] theorem execUnder_overlapping_cfg (n : BitVec 4) (s : State) :
    execUnder .overlapping (.cfg n) s = exec (.cfg n) s := rfl

@[simp] theorem execUnder_touching_cfg (n : BitVec 4) (s : State) :
    execUnder .touching (.cfg n) s = exec (.cfg n) s := rfl

/-! ### The end of a command -/

/-- The response depends on the error found alone. -/
theorem finish_response_congr (found : Option ErrorKind) (effect effect' : State → State) (s s' : State) :
    (finish found effect s).response = (finish found effect' s').response := by
  cases found <;> rfl

theorem Status.word_error_ne_zero (k : ErrorKind) : Status.word (.error k) ≠ 0#32 := by
  cases k <;> decide

/-- A command answers OK exactly when its checks found no error (30_encoding R86). -/
theorem finish_response_ok_iff {found : Option ErrorKind} {effect : State → State} {s : State} :
    (finish found effect s).response = some 0#32 ↔ found = none := by
  cases found with
  | none => exact iff_of_true (congrArg some Status.word_ok) rfl
  | some k => exact iff_of_false (fun h => Status.word_error_ne_zero k (Option.some.inj h)) (Option.some_ne_none k)

/-- An effect that carries the response along and can be repeated makes a command that can be repeated. -/
theorem finish_finish (found : Option ErrorKind) {effect : State → State} {s : State}
    (hresp : ∀ (u : State) (r : Option Word), effect { u with response := r } = { effect u with response := r })
    (hrep : effect (effect s) = effect s) : finish found effect (finish found effect s) = finish found effect s := by
  cases found with
  | some k => rfl
  | none =>
    calc finish none effect (finish none effect s)
        = finish none effect (effect s) := finish_forgets_response none (hresp (effect s) (some (Status.word .ok)))
      _ = finish none effect s := by rw [finish_none, finish_none, hrep]

/-! ### The meanings of ENC and DEC -/

theorem exec_enc (ie le ir lr : BitVec 2) (c : BitVec 8) (ih iw lh lw : BitVec 16) (s : State) :
    exec (.enc ie le ir lr c ih iw lh lw) s = .next (finish
      (encError s.bitWidth s.mem.labIn ie le ir lr c ih iw lh lw) (encEffect ih.toNat iw.toNat) s) := rfl

theorem exec_dec (tag : BitVec 2) (f : BitVec 8) (ns : BitVec 32) (s : State) :
    exec (.dec tag f ns) s = .next (finish (decError s.bitWidth tag f) (decEffect ns.toNat) s) := rfl

@[simp] theorem finish_encEffect_bitWidth (found : Option ErrorKind) (h w : Nat) (s : State) :
    (finish found (encEffect h w) s).bitWidth = s.bitWidth := by
  cases found <;> rfl

@[simp] theorem finish_encEffect_labIn (found : Option ErrorKind) (h w : Nat) (s : State) :
    (finish found (encEffect h w) s).mem.labIn = s.mem.labIn := by
  cases found <;> rfl

@[simp] theorem finish_decEffect_bitWidth (found : Option ErrorKind) (ns : Nat) (s : State) :
    (finish found (decEffect ns) s).bitWidth = s.bitWidth := by
  cases found <;> rfl

@[simp] theorem finish_decEffect_labIn (found : Option ErrorKind) (ns : Nat) (s : State) :
    (finish found (decEffect ns) s).mem.labIn = s.mem.labIn := by
  cases found <;> rfl

/-! ### Writing a block, and each effect, twice -/

/-- A block written twice is written once, as data and on any list: no old entry below the block's length is left. -/
theorem Space.writeBlock_writeBlock {w : Nat} (m : Space w) (vals : List (BitVec w)) :
    (m.writeBlock vals).writeBlock vals = m.writeBlock vals := by
  have hcells : (Space.cellsFrom 0 vals).filter (fun c => decide (vals.length ≤ c.1)) = [] := by
    refine List.filter_eq_nil_iff.mpr fun c hc => ?_
    obtain ⟨-, hlt, -⟩ := Space.cellsFrom_bounds 0 vals c hc
    simpa using hlt
  unfold Space.writeBlock
  rw [List.filter_append, hcells, List.nil_append, List.filter_filter]
  simp only [Bool.and_self]

theorem encEffect_encEffect (h w : Nat) (s : State) : encEffect h w (encEffect h w s) = encEffect h w s :=
  congrArg s.setImgOut (Space.writeBlock_writeBlock s.mem.imgOut (encImage s.n s.mem.imgIn s.mem.labIn h w))

theorem decEffect_decEffect (ns : Nat) (s : State) : decEffect ns (decEffect ns s) = decEffect ns s :=
  congrArg s.setLabOut (Space.writeBlock_writeBlock s.mem.labOut (decLabels s.n s.mem.smpIn ns))

/-! ### ENC and DEC in either order -/

/-- `ENC` and `DEC` write different spaces and read none that the other writes, so the memory is the same in either
order, whichever of the two fails. -/
theorem finish_decEffect_encEffect_mem (encFound decFound : Option ErrorKind) (h w ns : Nat) (s : State) :
    (finish decFound (decEffect ns) (finish encFound (encEffect h w) s)).mem =
      (finish encFound (encEffect h w) (finish decFound (decEffect ns) s)).mem := by
  cases encFound <;> cases decFound <;> rfl

/-! ### What ENC reads -/

theorem labelsInRange_congr {n lh lw : Nat} {a b : Space 8} (h : AgreeBelow (lh * lw) a b) :
    labelsInRange n a lh lw = labelsInRange n b lh lw := by
  rw [Bool.eq_iff_iff, labelsInRange_eq_true, labelsInRange_eq_true]
  refine forall₂_congr fun y hy => forall₂_congr fun x hx => ?_
  rw [h _ (labIndex_lt hy hx)]

theorem encError_congr {now : BitVec 4} {a b : Space 8} {ie le ir lr : BitVec 2} {c : BitVec 8}
    {ih iw lh lw : BitVec 16} (h : AgreeBelow (lh.toNat * lw.toNat) a b) :
    encError now a ie le ir lr c ih iw lh lw = encError now b ie le ir lr c ih iw lh lw := by
  simp only [encError, labelsInRange_congr h]

theorem encElement_congr {h w ch y x n : Nat} {img img' lab lab' : Space 8} (hc : ch < Config.nch) (hy : y < h)
    (hx : x < w) (himg : AgreeBelow (Config.nch * (h * w)) img img') (hlab : AgreeBelow (h * w) lab lab') :
    encElement n img lab h w ch y x = encElement n img' lab' h w ch y x := by
  simp only [encElement, himg _ (imgIndex_lt hc hy hx), hlab _ (labIndex_lt hy hx)]

/-- `ENC`'s output shape is a function of the bit width and of the elements inside the declared shapes
(20_memory R43). -/
theorem encEffect_agree {h w : Nat} {s s' : State} (hn : s.n = s'.n)
    (himg : AgreeBelow (Config.nch * (h * w)) s.mem.imgIn s'.mem.imgIn)
    (hlab : AgreeBelow (h * w) s.mem.labIn s'.mem.labIn) :
    AgreeBelow (Config.nch * (h * w)) (encEffect h w s).mem.imgOut (encEffect h w s').mem.imgOut := by
  intro k hk
  obtain ⟨ch, y, x, hc, hy, hx, rfl⟩ := imgIndex_surjective hk
  rw [encEffect_read s hc hy hx, encEffect_read s' hc hy hx, hn, encElement_congr hc hy hx himg hlab]

/-! ### What flatten writes -/

/-- The record of pixel (y, x) stands at y*w + x and carries that pixel's channels (20_memory R65). -/
theorem flattenRecord_labIndex {h w y x : Nat} (img : Space 8) (xyz : Byte × Byte × Byte) (hx : x < w) :
    flattenRecord h w img xyz (labIndex w y x) = [xyz.1, xyz.2.1, xyz.2.2, img.read (imgIndex h w 0 y x),
      img.read (imgIndex h w 1 y x), img.read (imgIndex h w 2 y x)] := by
  simp only [flattenRecord, labIndex_div hx, labIndex_mod hx]

theorem flatten_carriesPixels (h w : Nat) (img smp : Space 8) (xyz : List (Byte × Byte × Byte)) :
    CarriesPixels h w img (flatten h w img xyz smp) := by
  intro y x hy hx
  have hread (f : Nat) (hf : f < 6) := flatten_read img smp xyz (labIndex_lt hy hx) hf
  simp only [flattenRecord_labIndex img _ hx] at hread
  exact ⟨hread 3 (by decide), hread 4 (by decide), hread 5 (by decide)⟩

/-! ### The statements -/

/-- Settles O24: each of the two commands finds the same error or none on the state it left, and its effect can be
repeated. -/
theorem repeatingACommandChangesNothing : Obligations.RepeatingACommandChangesNothing := by
  intro i s t hi h
  cases i with
  | cfg n => exact absurd rfl (hi n)
  | enc ie le ir lr c ih iw lh lw =>
    rw [exec_enc] at h
    cases h
    rw [exec_enc, finish_encEffect_bitWidth, finish_encEffect_labIn,
      finish_finish _ (fun _ _ => rfl) (encEffect_encEffect _ _ s)]
  | dec tag f ns =>
    rw [exec_dec] at h
    cases h
    rw [exec_dec, finish_decEffect_bitWidth, finish_finish _ (fun _ _ => rfl) (decEffect_decEffect _ s)]

/-- Settles O25: neither command changes what the other's checks read, and the two effects are on different spaces. -/
theorem encAndDecCommute : Obligations.EncAndDecCommute := by
  intro s ie le ir lr c ih iw lh lw tag f ns
  refine ⟨_, _, _, _, exec_enc .., exec_dec .., exec_dec .., exec_enc .., ?_⟩
  simp only [finish_encEffect_bitWidth, finish_decEffect_bitWidth, finish_decEffect_labIn]
  exact ⟨finish_decEffect_encEffect_mem _ _ _ _ _ s, trivial, finish_response_congr .., finish_response_congr ..⟩

/-- Settles O38: the checks read the labels of the declared grid alone, and a success has the two shapes equal, so every
element written is made from elements inside them. -/
theorem encDependsOnItsInputsAlone : Obligations.EncDependsOnItsInputsAlone := by
  intro s s' t t' ie le ir lr c ih iw lh lw hbits himg hlab h h'
  rw [exec_enc] at h h'
  rw [← hbits, ← encError_congr hlab] at h'
  cases h
  cases h'
  refine ⟨finish_response_congr .., fun hok => ?_⟩
  have hnone := finish_response_ok_iff.mp hok
  obtain ⟨-, -, ⟨-, -, -, rfl, rfl⟩, -⟩ := encError_eq_none.mp hnone
  rw [hnone, finish_none, finish_none, returnOk_mem, returnOk_mem]
  rw [Nat.mul_assoc] at himg ⊢
  exact encEffect_agree (congrArg BitVec.toNat hbits) himg hlab

/-- Settles O46: the record read back field by field, at each pixel for the channels and at each listed record for
x, y, z. -/
theorem flattenCarriesThePixels : Obligations.FlattenCarriesThePixels := by
  intro h w img smp xyz
  refine ⟨flatten_carriesPixels h w img smp xyz, fun i hi hlen => ?_⟩
  have hget : xyz[i]? = some xyz[i] := List.getElem?_eq_getElem hlen
  have hgetD : xyz.getD i (0, 0, 0) = xyz[i] := by rw [List.getD_eq_getElem?_getD, hget, Option.getD_some]
  have hread (f : Nat) (hf : f < 6) := flatten_read img smp xyz hi hf
  rw [hgetD] at hread
  exact ⟨_, _, _, hget, hread 0 (by decide), hread 1 (by decide), hread 2 (by decide)⟩

/-- Settles O2: the step on the presented command, under proper conduct. -/
theorem stepRunsTheDecodedCommand : Obligations.StepRunsTheDecodedCommand :=
  fun _ _ _ i hin hdec => (step_of_inbox_command hin hdec).trans (execUnder_proper i _)

/-- Settles O6: under either misuse a command that is given spaces is refused and a `CFG` runs. -/
theorem misusedSpacesAreRefused : Obligations.MisusedSpacesAreRefused := by
  intro s words rest i hdec
  refine ⟨fun hin => ⟨fun hi => ?_, ?_⟩, fun hin => ⟨fun hi => ?_, ?_⟩⟩
  · rw [step_of_inbox_command hin hdec, execUnder_overlapping _ (usesSpaces_of_ne_cfg hi)]
  · rintro ⟨n, rfl⟩
    exact (step_of_inbox_command hin hdec).trans (execUnder_overlapping_cfg n _)
  · rw [step_of_inbox_command hin hdec, execUnder_touching _ (usesSpaces_of_ne_cfg hi)]
  · rintro ⟨n, rfl⟩
    exact (step_of_inbox_command hin hdec).trans (execUnder_touching_cfg n _)

end Sys2Proof.Machine

/-! The descriptor and the response (30_encoding), first the descriptor: the decoder on each form it accepts, the fields of
encoded words, and the rows of the opcode table as conditions on fields. -/

namespace Sys2Proof

/-! ### The decoder on each form it accepts -/

theorem decode_cfgForm {w0 : Word} (hop : opField w0 = 1#2) (hres : w0.extractLsb' 4 26 = 0#26) :
    decode [w0] = .ok (decodeCfg w0) := by
  simp [decode, reservedBitsZero, hop, hres]

theorem decode_encForm {w0 : Word} (w1 w2 : Word) (hop : opField w0 = 2#2) (hres : w0.extractLsb' 8 14 = 0#14) :
    decode [w0, w1, w2] = .ok (decodeEnc w0 w1 w2) := by
  simp [decode, reservedBitsZero, hop, hres]

theorem decode_decForm {w0 : Word} (w1 : Word) (hop : opField w0 = 3#2) (hres : w0.extractLsb' 8 20 = 0#20) :
    decode [w0, w1] = .ok (decodeDec w0 w1) := by
  simp [decode, reservedBitsZero, hop, hres]

/-! ### Fields of a word laid out from fields -/

/-- A field is read from a word by its value: quotient and remainder are the field's own. -/
theorem extract_eq_of_toNat {n lo len : Nat} {w : BitVec n} {v : BitVec len}
    (h : w.toNat / 2 ^ lo % 2 ^ len = v.toNat) : w.extractLsb' lo len = v :=
  BitVec.eq_of_toNat_eq ((toNat_extract lo len w).trans h)

/-- The two halves of `W1` and of `W2` of an `ENC` (30_encoding R80). -/
theorem extract_halves (a b : BitVec 16) :
    (a ++ b : BitVec 32).extractLsb' 16 16 = a ∧ (a ++ b : BitVec 32).extractLsb' 0 16 = b := by
  have ha := a.isLt
  have hb := b.isLt
  constructor <;> apply extract_eq_of_toNat <;> rw [toNat_append_add] <;> omega

theorem halves_append (w : Word) : (w.extractLsb' 16 16 ++ w.extractLsb' 0 16 : BitVec 32) = w := by
  apply BitVec.eq_of_toNat_eq
  have hw := w.isLt
  simp only [toNat_append_add, toNat_extract]
  omega

/-- The fields of `W0` of a `CFG` (30_encoding R77). -/
theorem cfgWord_fields (n : BitVec 4) :
    opField (1#2 ++ 0#26 ++ n) = 1#2 ∧ (1#2 ++ 0#26 ++ n : BitVec 32).extractLsb' 4 26 = 0#26 ∧
      (1#2 ++ 0#26 ++ n : BitVec 32).extractLsb' 0 4 = n := by
  have hn := n.isLt
  refine ⟨?_, ?_, ?_⟩ <;> apply extract_eq_of_toNat <;> simp only [toNat_append_add, BitVec.toNat_ofNat] <;> omega

/-- The fields of `W0` of an `ENC` (30_encoding R80). -/
theorem encWord_fields (ie le ir lr : BitVec 2) (c : BitVec 8) :
    let w0 : Word := 2#2 ++ ie ++ le ++ ir ++ lr ++ 0#14 ++ c
    opField w0 = 2#2 ∧ w0.extractLsb' 8 14 = 0#14 ∧ w0.extractLsb' 28 2 = ie ∧ w0.extractLsb' 26 2 = le ∧
      w0.extractLsb' 24 2 = ir ∧ w0.extractLsb' 22 2 = lr ∧ w0.extractLsb' 0 8 = c := by
  have := ie.isLt
  have := le.isLt
  have := ir.isLt
  have := lr.isLt
  have := c.isLt
  refine ⟨?_, ?_, ?_, ?_, ?_, ?_, ?_⟩ <;> apply extract_eq_of_toNat <;>
    simp only [toNat_append_add, BitVec.toNat_ofNat] <;> omega

/-- The fields of `W0` of a `DEC` (30_encoding R81). -/
theorem decWord_fields (tag : BitVec 2) (f : BitVec 8) :
    let w0 : Word := 3#2 ++ tag ++ 0#20 ++ f
    opField w0 = 3#2 ∧ w0.extractLsb' 8 20 = 0#20 ∧ w0.extractLsb' 28 2 = tag ∧ w0.extractLsb' 0 8 = f := by
  have := tag.isLt
  have := f.isLt
  refine ⟨?_, ?_, ?_, ?_⟩ <;> apply extract_eq_of_toNat <;> simp only [toNat_append_add, BitVec.toNat_ofNat] <;> omega

/-! ### The encoder on each form the decoder accepts -/

theorem encode_decodeCfg {w0 : Word} (hop : opField w0 = 1#2) (hres : w0.extractLsb' 4 26 = 0#26) :
    encode (decodeCfg w0) = [w0] := by
  have hw0 : (1#2 ++ 0#26 ++ w0.extractLsb' 0 4 : BitVec 32) = w0 := by
    rw [← hop, ← hres]
    apply BitVec.eq_of_toNat_eq
    have hlt := w0.isLt
    simp only [opField, toNat_append_add, toNat_extract]
    omega
  simp only [decodeCfg, encode, hw0]

theorem encode_decodeEnc {w0 : Word} (w1 w2 : Word) (hop : opField w0 = 2#2) (hres : w0.extractLsb' 8 14 = 0#14) :
    encode (decodeEnc w0 w1 w2) = [w0, w1, w2] := by
  have hw0 : (2#2 ++ w0.extractLsb' 28 2 ++ w0.extractLsb' 26 2 ++ w0.extractLsb' 24 2 ++ w0.extractLsb' 22 2 ++ 0#14 ++
      w0.extractLsb' 0 8 : BitVec 32) = w0 := by
    rw [← hop, ← hres]
    apply BitVec.eq_of_toNat_eq
    have hlt := w0.isLt
    simp only [opField, toNat_append_add, toNat_extract]
    omega
  simp only [decodeEnc, encode, hw0, halves_append]

theorem encode_decodeDec {w0 : Word} (w1 : Word) (hop : opField w0 = 3#2) (hres : w0.extractLsb' 8 20 = 0#20) :
    encode (decodeDec w0 w1) = [w0, w1] := by
  have hw0 : (3#2 ++ w0.extractLsb' 28 2 ++ 0#20 ++ w0.extractLsb' 0 8 : BitVec 32) = w0 := by
    rw [← hop, ← hres]
    apply BitVec.eq_of_toNat_eq
    have hlt := w0.isLt
    simp only [opField, toNat_append_add, toNat_extract]
    omega
  simp only [decodeDec, encode, hw0]

/-! ### A row of the opcode table as a condition on fields -/

theorem getLsbD_of_extract_eq {a b : Word} {lo len i : Nat} (h : a.extractLsb' lo len = b.extractLsb' lo len)
    (hlo : lo ≤ i) (hhi : i < lo + len) : a.getLsbD i = b.getLsbD i := by
  have hbit := congrArg (fun v => v.getLsbD (i - lo)) h
  have hlt : i - lo < len := by omega
  simpa [BitVec.getLsbD_extractLsb', hlt, Nat.add_sub_cancel' hlo] using hbit

/-- Two words are equal when they have the same `op` and agree in the three fields that the bits `k ≤ m` cut out of the
rest. -/
theorem word_eq_iff_fields {a b : Word} {k m : Nat} (hm : m ≤ 30) :
    a = b ↔ opField a = opField b ∧ a.extractLsb' m (30 - m) = b.extractLsb' m (30 - m) ∧
      a.extractLsb' k (m - k) = b.extractLsb' k (m - k) ∧ a.extractLsb' 0 k = b.extractLsb' 0 k := by
  refine ⟨fun h => h ▸ ⟨rfl, rfl, rfl, rfl⟩, fun ⟨hop, hhigh, hmid, hlow⟩ => BitVec.eq_of_getLsbD_eq fun i hi => ?_⟩
  rcases Nat.lt_or_ge i k with hk | hk
  · exact getLsbD_of_extract_eq hlow (Nat.zero_le i) (by omega)
  · rcases Nat.lt_or_ge i m with him | him
    · exact getLsbD_of_extract_eq hmid hk (by omega)
    · rcases Nat.lt_or_ge i 30 with h30 | h30
      · exact getLsbD_of_extract_eq hhigh him (by omega)
      · exact getLsbD_of_extract_eq hop h30 (by omega)

/-- A row's mask and pattern fix the `op` and say that the bits `[m-1:k]` are zero, leaving all others free. -/
abbrev OpcodeRow.FixesOpAndZeros (r : OpcodeRow) (op : BitVec 2) (k m : Nat) : Prop :=
  (opField r.mask = BitVec.allOnes 2 ∧ r.mask.extractLsb' m (30 - m) = 0#(30 - m) ∧
    r.mask.extractLsb' k (m - k) = BitVec.allOnes (m - k) ∧ r.mask.extractLsb' 0 k = 0#k) ∧
  (opField r.pattern = op ∧ r.pattern.extractLsb' m (30 - m) = 0#(30 - m) ∧
    r.pattern.extractLsb' k (m - k) = 0#(m - k) ∧ r.pattern.extractLsb' 0 k = 0#k)

theorem opField_and (a b : Word) : opField (a &&& b) = opField a &&& opField b := BitVec.extractLsb'_and

/-- Matching by mask and pattern (30_encoding R91) is having the `op` and the zero bits. -/
theorem OpcodeRow.selects_iff {r : OpcodeRow} {op : BitVec 2} {k m : Nat} (hm : m ≤ 30)
    (h : r.FixesOpAndZeros op k m) (w0 : Word) :
    r.selects w0 = true ↔ opField w0 = op ∧ w0.extractLsb' k (m - k) = 0#(m - k) := by
  obtain ⟨⟨mop, mhigh, mmid, mlow⟩, pop, phigh, pmid, plow⟩ := h
  rw [OpcodeRow.selects, beq_iff_eq, word_eq_iff_fields (k := k) hm]
  simp only [opField_and, BitVec.extractLsb'_and, mop, mhigh, mmid, mlow, pop, phigh, pmid, plow, BitVec.and_allOnes,
    BitVec.and_zero, true_and, and_true]

theorem cfgRow_selects_iff (w0 : Word) :
    cfgRow.selects w0 = true ↔ opField w0 = 1#2 ∧ w0.extractLsb' 4 26 = 0#26 :=
  OpcodeRow.selects_iff (k := 4) (m := 30) (by decide) (by decide) w0

theorem encRow_selects_iff (w0 : Word) :
    encRow.selects w0 = true ↔ opField w0 = 2#2 ∧ w0.extractLsb' 8 14 = 0#14 :=
  OpcodeRow.selects_iff (k := 8) (m := 22) (by decide) (by decide) w0

theorem decRow_selects_iff (w0 : Word) :
    decRow.selects w0 = true ↔ opField w0 = 3#2 ∧ w0.extractLsb' 8 20 = 0#20 :=
  OpcodeRow.selects_iff (k := 8) (m := 28) (by decide) (by decide) w0

/-- A matching word has the row's own `op`. -/
theorem opField_of_selects {r : OpcodeRow} (hr : r ∈ opcodeRows) {w0 : Word} (h : r.selects w0 = true) :
    opField w0 = opField r.pattern := by
  have hmask : opField r.mask = BitVec.allOnes 2 :=
    (by decide : ∀ r ∈ opcodeRows, opField r.mask = BitVec.allOnes 2) r hr
  have hmatch : w0 &&& r.mask = r.pattern := beq_iff_eq.mp h
  rw [← hmatch, opField_and, hmask, BitVec.and_allOnes]

/-- The three rows, each with the length of its descriptors (30_encoding R90). -/
theorem wellFormedDescriptor_cons (w0 : Word) (rest : List Word) :
    wellFormedDescriptor (w0 :: rest) = true ↔
      (opField w0 = 1#2 ∧ w0.extractLsb' 4 26 = 0#26) ∧ rest.length = 0 ∨
      (opField w0 = 2#2 ∧ w0.extractLsb' 8 14 = 0#14) ∧ rest.length = 2 ∨
      (opField w0 = 3#2 ∧ w0.extractLsb' 8 20 = 0#20) ∧ rest.length = 1 := by
  rw [← cfgRow_selects_iff, ← encRow_selects_iff, ← decRow_selects_iff]
  simp [wellFormedDescriptor, opcodeRows, cfgRow, encRow, decRow]

/-! ### The statements on descriptors -/

/-- Settles O12: each encoding has one of the forms the decoder accepts, and each field of it is the operand. -/
theorem decodeReadsBackEveryEncoding : Obligations.DecodeReadsBackEveryEncoding := by
  intro i
  cases i with
  | cfg n =>
    obtain ⟨hop, hres, hn⟩ := cfgWord_fields n
    calc decode (encode (.cfg n)) = .ok (decodeCfg (1#2 ++ 0#26 ++ n)) := decode_cfgForm hop hres
      _ = .ok (.cfg n) := by rw [decodeCfg, hn]
  | enc ie le ir lr c ih iw lh lw =>
    obtain ⟨hop, hres, hie, hle, hir, hlr, hc⟩ := encWord_fields ie le ir lr c
    obtain ⟨hih, hiw⟩ := extract_halves ih iw
    obtain ⟨hlh, hlw⟩ := extract_halves lh lw
    calc decode (encode (.enc ie le ir lr c ih iw lh lw))
        = .ok (decodeEnc (2#2 ++ ie ++ le ++ ir ++ lr ++ 0#14 ++ c) (ih ++ iw) (lh ++ lw)) :=
          decode_encForm _ _ hop hres
      _ = .ok (.enc ie le ir lr c ih iw lh lw) := by
          rw [decodeEnc, hie, hle, hir, hlr, hc, hih, hiw, hlh, hlw]
  | dec tag f ns =>
    obtain ⟨hop, hres, htag, hf⟩ := decWord_fields tag f
    calc decode (encode (.dec tag f ns)) = .ok (decodeDec (3#2 ++ tag ++ 0#20 ++ f) ns) := decode_decForm _ hop hres
      _ = .ok (.dec tag f ns) := by rw [decodeDec, htag, hf]

/-- Settles O13: on each form the decoder accepts, the encoder lays the same fields out again. -/
theorem encodeReadsBackEveryDecoding : Obligations.EncodeReadsBackEveryDecoding := by
  intro words i h
  rcases decode_cases h with ⟨w0, rfl, hop, hres, rfl⟩ | ⟨w0, w1, w2, rfl, hop, hres, rfl⟩ |
    ⟨w0, w1, rfl, hop, hres, rfl⟩
  · exact encode_decodeCfg hop hres
  · exact encode_decodeEnc w1 w2 hop hres
  · exact encode_decodeDec w1 hop hres

/-- Settles O14: the decoder's three forms are the three rows with their lengths. -/
theorem decodeAcceptsExactlyTheWellFormed : Obligations.DecodeAcceptsExactlyTheWellFormed := by
  refine fun words => ⟨fun ⟨i, h⟩ => ?_, fun h => ?_⟩
  · rcases decode_cases h with ⟨w0, rfl, hop, hres, -⟩ | ⟨w0, w1, w2, rfl, hop, hres, -⟩ | ⟨w0, w1, rfl, hop, hres, -⟩
    · exact (wellFormedDescriptor_cons _ _).mpr (.inl ⟨⟨hop, hres⟩, rfl⟩)
    · exact (wellFormedDescriptor_cons _ _).mpr (.inr (.inl ⟨⟨hop, hres⟩, rfl⟩))
    · exact (wellFormedDescriptor_cons _ _).mpr (.inr (.inr ⟨⟨hop, hres⟩, rfl⟩))
  · cases words with
    | nil => exact absurd h (by decide)
    | cons w0 rest =>
      rcases (wellFormedDescriptor_cons w0 rest).mp h with ⟨⟨hop, hres⟩, hlen⟩ | ⟨⟨hop, hres⟩, hlen⟩ |
        ⟨⟨hop, hres⟩, hlen⟩
      · obtain rfl := List.length_eq_zero_iff.mp hlen
        exact ⟨_, decode_cfgForm hop hres⟩
      · obtain ⟨w1, w2, rfl⟩ := List.length_eq_two.mp hlen
        exact ⟨_, decode_encForm w1 w2 hop hres⟩
      · obtain ⟨w1, rfl⟩ := List.length_eq_one_iff.mp hlen
        exact ⟨_, decode_decForm w1 hop hres⟩

/-- Settles O15: the rows have different `op`s, and a word has one. -/
theorem opcodeRowsNeverOverlap : Obligations.OpcodeRowsNeverOverlap := by
  intro w0
  have hops : opcodeRows.Pairwise fun a b => opField a.pattern ≠ opField b.pattern := by decide
  refine hops.imp_of_mem fun ha hb hne ⟨hsela, hselb⟩ => hne ?_
  rw [← opField_of_selects ha hsela, ← opField_of_selects hb hselb]

/-- Settles O17: the decoder's three forms, one per `op`. -/
theorem lengthComesFromTheOpAlone : Obligations.LengthComesFromTheOpAlone := by
  intro w0 more i h
  rcases decode_cases h with ⟨v0, hw, hop, -, rfl⟩ | ⟨v0, w1, w2, hw, hop, -, rfl⟩ | ⟨v0, w1, hw, hop, -, rfl⟩ <;>
    obtain ⟨rfl, rfl⟩ := List.cons.inj hw
  · exact .inl ⟨hop, rfl, _, rfl⟩
  · exact .inr (.inl ⟨hop, rfl, _, _, _, _, _, _, _, _, _, rfl⟩)
  · exact .inr (.inr ⟨hop, rfl, _, _, _, rfl⟩)

/-- Settles O18: the encoder's words are evaluated, and the round trip reads them back. -/
theorem theSpecsExampleDescriptorsDecode : Obligations.TheSpecsExampleDescriptorsDecode := by
  have hcfg : encode (.cfg 2#4) = [0x40000002#32] := by decide
  have henc : encode (.enc 0#2 0#2 3#2 2#2 3#8 1#16 1#16 1#16 1#16) =
      [0x83800003#32, 0x00010001#32, 0x00010001#32] := by decide
  have hdec : encode (.dec 0#2 6#8 1#32) = [0xC0000006#32, 0x00000001#32] := by decide
  exact ⟨hcfg ▸ decodeReadsBackEveryEncoding _, henc ▸ decodeReadsBackEveryEncoding _,
    hdec ▸ decodeReadsBackEveryEncoding _, hcfg, henc, hdec⟩

end Sys2Proof

/-! What presenting a descriptor does (30_encoding): a reserved one is refused, every command completes with one legal
response word and keeps the invariant, and so a host that keeps its duties is never stopped. -/

namespace Sys2Proof.Machine

/-! ### A descriptor that is no command -/

theorem takeEvent_notACommand {words : List Word} {reason : DecodeError} (conduct : Conduct) (s : State)
    (h : decode words = .error reason) : takeEvent (.command words conduct) s = .refused (.notACommand reason) := by
  simp only [takeEvent, takeCommand, h]

/-- A decoded first word has none of the reserved encodings (30_encoding R84). -/
theorem not_reserved_of_decode {w0 : Word} {more : List Word} {i : Instr} (h : decode (w0 :: more) = .ok i) :
    opField w0 = 1#2 ∧ w0.extractLsb' 4 26 = 0#26 ∨ opField w0 = 2#2 ∧ w0.extractLsb' 8 14 = 0#14 ∨
      opField w0 = 3#2 ∧ w0.extractLsb' 8 20 = 0#20 := by
  have hwf := (decodeAcceptsExactlyTheWellFormed (w0 :: more)).mp ⟨i, h⟩
  exact ((wellFormedDescriptor_cons w0 more).mp hwf).imp And.left (.imp And.left And.left)

/-- Settles O16: were the descriptor to decode, its `op` and its reserved bits would contradict each reserved case. -/
theorem reservedEncodingsAreRefused : Obligations.ReservedEncodingsAreRefused := by
  intro s w0 more conduct rest hin hreserved
  cases hdec : decode (w0 :: more) with
  | error reason => exact ⟨reason, (step_of_inbox_cons hin).trans (takeEvent_notACommand conduct _ hdec)⟩
  | ok i =>
    change opField w0 = 0#2 ∨ (opField w0 = 1#2 ∧ _) ∨ (opField w0 = 2#2 ∧ _) ∨ (opField w0 = 3#2 ∧ _) at hreserved
    rcases not_reserved_of_decode hdec with ⟨hop, hres⟩ | ⟨hop, hres⟩ | ⟨hop, hres⟩ <;>
      simp [hop, hres] at hreserved

/-! ### The response -/

/-- Every command completes with the word of some status (30_encoding R86, R90). -/
theorem exec_responds (i : Instr) (s : State) : ∃ (t : State) (st : Status), exec i s = .next t ∧
    t.response = some st.word := by
  rcases exec_cases i s with ⟨k, e⟩ | ⟨n, -, -, e⟩ | ⟨_, _, _, _, _, _, _, _, _, -, -, e⟩ | ⟨_, _, _, -, -, e⟩
  · exact ⟨_, .error k, e, raise_response s k⟩
  · exact ⟨_, .ok, e, returnOk_response _⟩
  · exact ⟨_, .ok, e, returnOk_response _⟩
  · exact ⟨_, .ok, e, returnOk_response _⟩

theorem Status.code_le (st : Status) : st.code.toNat ≤ 4 := by
  rcases st with _ | k
  · decide
  · cases k <;> decide

/-- The bits of a response word above `STATUS` are zero (30_encoding R86). -/
theorem Status.word_reserved (st : Status) : st.word.extractLsb' 3 29 = 0#29 := by
  apply extract_eq_of_toNat
  have hcode := st.code.isLt
  rw [Status.word_toNat, Nat.div_eq_of_lt hcode]
  rfl

/-- Settles O19: the response is the word of a status, which is at most 4. -/
theorem everyCommandReturnsOneResponse : Obligations.EveryCommandReturnsOneResponse := by
  intro i s
  obtain ⟨t, st, hexec, hresp⟩ := exec_responds i s
  exact ⟨t, st.word, hexec, hresp, st.word_reserved, st.word_toNat.trans_le st.code_le⟩

theorem State.responseLegal_of_status {s : State} {st : Status} (h : s.response = some st.word) :
    s.responseLegal := by
  cases st with
  | ok => exact .inr (.inl h)
  | error k => exact .inr (.inr ⟨k, by cases k <;> decide, h⟩)

/-! ### The memory stays well-formed -/

theorem Memory.wf_bytes {m : Memory} (h : m.wf) (sp : ByteSpace) : (m.bytes sp).wf ∧ (m.bytes sp).within sp.limit := by
  obtain ⟨himgIn, hlabIn, himgOut, hsmpIn, -⟩ := h
  cases sp
  · exact himgIn
  · exact hlabIn
  · exact himgOut
  · exact hsmpIn

theorem Memory.wf_labOut {m : Memory} (h : m.wf) : m.labOut.wf ∧ m.labOut.within Config.labOutLimit := by
  obtain ⟨-, -, -, -, hlabOut⟩ := h
  exact hlabOut

theorem Memory.wf_setBytes {m : Memory} (h : m.wf) {sp : ByteSpace} {v : Space 8} (hv : v.wf ∧ v.within sp.limit) :
    (m.setBytes sp v).wf := by
  obtain ⟨himgIn, hlabIn, himgOut, hsmpIn, hlabOut⟩ := h
  cases sp
  · exact ⟨hv, hlabIn, himgOut, hsmpIn, hlabOut⟩
  · exact ⟨himgIn, hv, himgOut, hsmpIn, hlabOut⟩
  · exact ⟨himgIn, hlabIn, hv, hsmpIn, hlabOut⟩
  · exact ⟨himgIn, hlabIn, himgOut, hv, hlabOut⟩

theorem State.wf_setImgOut {s : State} (h : s.mem.wf) {v : Space 8} (hv : v.wf ∧ v.within Config.imgLimit) :
    (s.setImgOut v).mem.wf :=
  Memory.wf_setBytes (sp := .imgOut) h hv

theorem State.wf_setLabOut {s : State} (h : s.mem.wf) {v : Space 38} (hv : v.wf ∧ v.within Config.labOutLimit) :
    (s.setLabOut v).mem.wf := by
  obtain ⟨himgIn, hlabIn, himgOut, hsmpIn, -⟩ := h
  exact ⟨himgIn, hlabIn, himgOut, hsmpIn, hv⟩

/-- The encoded image of any two extents is inside `IMG_OUT` (20_memory R46, R54). -/
theorem encImage_length_le (n : Nat) (imgIn labIn : Space 8) (h w : BitVec 16) :
    (encImage n imgIn labIn h.toNat w.toNat).length ≤ Config.imgLimit := by
  rw [encImage_length, Config.imgLimit, Nat.mul_assoc]
  exact Nat.mul_le_mul_left _ (Nat.mul_le_mul (Nat.le_pred_of_lt h.isLt) (Nat.le_pred_of_lt w.isLt))

theorem encEffect_wf {s : State} (hs : s.mem.wf) (h w : BitVec 16) : (encEffect h.toNat w.toNat s).mem.wf := by
  obtain ⟨hwf, hin⟩ := Memory.wf_bytes hs .imgOut
  exact State.wf_setImgOut hs
    ⟨Space.wf_writeBlock _ _ hwf, Space.within_writeBlock _ _ _ (encImage_length_le _ _ _ h w) hin⟩

theorem decEffect_wf {s : State} (hs : s.mem.wf) (ns : BitVec 32) : (decEffect ns.toNat s).mem.wf := by
  have hlen : (decLabels s.n s.mem.smpIn ns.toNat).length ≤ Config.labOutLimit := by
    rw [decLabels_length]
    exact Nat.le_pred_of_lt ns.isLt
  obtain ⟨hwf, hin⟩ := Memory.wf_labOut hs
  exact State.wf_setLabOut hs ⟨Space.wf_writeBlock _ _ hwf, Space.within_writeBlock _ _ _ hlen hin⟩

theorem exec_keeps_wf {i : Instr} {s t : State} (hs : s.mem.wf) (h : exec i s = .next t) : t.mem.wf := by
  rcases exec_cases i s with ⟨k, e⟩ | ⟨n, -, -, e⟩ | ⟨_, _, _, _, _, ih, iw, _, _, -, -, e⟩ | ⟨_, _, ns, -, -, e⟩ <;>
    rw [e] at h <;> cases h
  · exact hs
  · exact hs
  · exact encEffect_wf hs ih iw
  · exact decEffect_wf hs ns

theorem abandon_wf {s t : State} (hs : s.mem.wf) (ht : t.mem.wf) : (abandon s t).mem.wf := by
  obtain ⟨himgIn, hlabIn, ⟨himgOut, himgOutIn⟩, hsmpIn, hlabOut, hlabOutIn⟩ := hs
  obtain ⟨-, -, ⟨-, htImgOutIn⟩, -, -, htLabOutIn⟩ := ht
  exact ⟨himgIn, hlabIn, ⟨Space.wf_mix _ _ _ himgOut, Space.within_mix _ _ _ _ himgOutIn htImgOutIn⟩, hsmpIn,
    Space.wf_mix _ _ _ hlabOut, Space.within_mix _ _ _ _ hlabOutIn htLabOutIn⟩

/-! ### The invariant along a step -/

theorem exec_keeps_inv {i : Instr} {s t : State} (hs : s.mem.wf) (h : exec i s = .next t) : t.Inv := by
  obtain ⟨t', st, hexec, hresp⟩ := exec_responds i s
  obtain rfl : t' = t := Host.Outcome.next.inj (hexec.symm.trans h)
  exact ⟨exec_keeps_wf hs h, State.responseLegal_of_status hresp⟩

theorem step_keeps_inv {s t : State} (hs : s.Inv) (h : step s = .next t) : t.Inv := by
  obtain ⟨hmem, hresp⟩ := hs
  rcases step_cases h with ⟨-, rfl⟩ | ⟨rest, -, rfl⟩ | ⟨sp, i, v, rest, -, hi, rfl⟩ | ⟨i, v, rest, -, hi, rfl⟩ |
    ⟨words, conduct, rest, i, -, -, hexec | ⟨-, u, hexec, rfl⟩⟩
  · exact ⟨hmem, hresp⟩
  · exact ⟨hmem, .inl rfl⟩
  · obtain ⟨hwf, hin⟩ := Memory.wf_bytes hmem sp
    exact ⟨Memory.wf_setBytes hmem ⟨Space.wf_write _ i v hwf, Space.within_write _ i v _ hi hin⟩, hresp⟩
  · obtain ⟨hwf, hin⟩ := Memory.wf_labOut hmem
    exact ⟨State.wf_setLabOut hmem ⟨Space.wf_write _ i v hwf, Space.within_write _ i v _ hi hin⟩, hresp⟩
  · exact exec_keeps_inv (s := s.setInbox rest) hmem hexec
  · exact ⟨abandon_wf hmem (exec_keeps_wf (s := s.setInbox rest) hmem hexec), .inl rfl⟩

/-! ### The host's duties along a step -/

/-- A step takes the next event and leaves the others. -/
theorem step_inbox {s t : State} (h : step s = .next t) : t.inbox = s.inbox.tail := by
  rcases step_cases h with ⟨hin, rfl⟩ | ⟨rest, hin, rfl⟩ | ⟨sp, i, v, rest, hin, -, rfl⟩ | ⟨i, v, rest, hin, -, rfl⟩ |
    ⟨words, conduct, rest, i, hin, -, hexec | ⟨-, u, -, rfl⟩⟩ <;> rw [hin]
  · rfl
  · rfl
  · rfl
  · rfl
  · exact (exec_keeps hexec).1
  · rfl

theorem State.hostDutiful_eq_true {s : State} :
    s.hostDutiful = true ↔ ∀ e ∈ s.inbox, HostEvent.dutiful e = true :=
  List.all_eq_true

theorem step_keeps_hostDutiful {s t : State} (hs : s.hostDutiful = true) (h : step s = .next t) :
    t.hostDutiful = true := by
  rw [State.hostDutiful_eq_true] at hs ⊢
  rw [step_inbox h]
  exact fun e he => hs e (List.mem_of_mem_tail he)

/-- Under the two conducts a dutiful host may show, every command answers a next state. -/
theorem execUnder_answers {conduct : Conduct} (h : conduct = .proper ∨ conduct = .resetting) (i : Instr) (s : State) :
    ∃ t, execUnder conduct i s = .next t := by
  obtain ⟨t, -, hexec, -⟩ := exec_responds i s
  rcases h with rfl | rfl
  · exact ⟨t, hexec⟩
  · exact ⟨abandon s t, by simp only [execUnder, execAbandoned, hexec]⟩

theorem takeEvent_answers {e : HostEvent} (he : e.dutiful = true) (s : State) : ∃ t, takeEvent e s = .next t := by
  cases e with
  | command words conduct =>
    simp only [HostEvent.dutiful, Bool.and_eq_true, Bool.or_eq_true, beq_iff_eq] at he
    obtain ⟨hwords, hconduct⟩ := he
    obtain ⟨i, hdec⟩ := (decodeAcceptsExactlyTheWellFormed words).mpr hwords
    rw [takeEvent_command conduct s hdec]
    exact execUnder_answers hconduct i s
  | writeByte sp i v => exact ⟨_, if_pos (of_decide_eq_true he)⟩
  | writeLabel i v => exact ⟨_, if_pos (of_decide_eq_true he)⟩
  | reset => exact ⟨_, takeEvent_reset s⟩

/-- A host that keeps its duties is not stopped by the next step. -/
theorem step_answers {s : State} (hs : s.hostDutiful = true) : ∃ t, step s = .next t := by
  cases hin : s.inbox with
  | nil => exact ⟨s, by simp only [step, takeNext, hin]⟩
  | cons e rest =>
    rw [step_of_inbox_cons hin]
    exact takeEvent_answers (State.hostDutiful_eq_true.mp hs e (hin ▸ List.mem_cons_self)) _

/-! ### Any number of steps -/

/-- A property under which one step answers a state that has it again holds along any number of steps. -/
theorem run_answers {P : State → Prop} (hstep : ∀ s, P s → ∃ t, step s = .next t ∧ P t) (k : Nat) {s : State}
    (hs : P s) : ∃ t, Host.Core.run core k s = .next t ∧ P t := by
  induction k generalizing s with
  | zero => exact ⟨s, rfl, hs⟩
  | succ k ih =>
    obtain ⟨u, hu, hPu⟩ := hstep s hs
    obtain ⟨t, ht, hPt⟩ := ih hPu
    have hcore : core.step s = .next u := hu
    exact ⟨t, by simp only [Host.Core.run, hcore, ht], hPt⟩

/-- Settles O10: one step from a state with the invariant and the duties answers, and keeps both. -/
theorem dutifulHostIsNeverStopped : Obligations.DutifulHostIsNeverStopped := by
  intro k s hinv hduty
  refine run_answers (P := fun s => s.Inv ∧ s.hostDutiful = true) (fun s hs => ?_) k ⟨hinv, hduty⟩
  obtain ⟨hsInv, hsDuty⟩ := hs
  obtain ⟨t, ht⟩ := step_answers hsDuty
  exact ⟨t, ht, step_keeps_inv hsInv ht, step_keeps_hostDutiful hsDuty ht⟩

end Sys2Proof.Machine

/-! The bit-partition helpers (40_bit_partition_helpers): the helpers as bit selections, the fields of a label, and the
label that three low parts make. The proofs of the statements about the mask forms, the fields and the samples follow. -/

namespace Sys2Proof.Machine

/-! ### The masks (R101) -/

/-- Above 8 bits the 8-bit mask stays that of 8 bits. -/
theorem mask8_eq (n : Nat) : mask8 n = 2 ^ min n 8 - 1 := by
  have hmin : min (2 ^ n) (2 ^ 8) = 2 ^ min n 8 := (pow_right_mono₀ one_le_two).map_min.symm
  exact congrArg (· - 1) hmin

theorem mask8_of_le {n : Nat} (h : n ≤ 8) : mask8 n = mask n := by
  rw [mask8_eq, min_eq_left h, mask]

theorem mask8_of_ge {n : Nat} (h : 8 ≤ n) : mask8 n = 255 := by
  rw [mask8_eq, min_eq_right h]
  decide

/-- `~_8` of a mask of k bits has the bits from k to 7. -/
theorem testBit_complement8_mask {k : Nat} (hk : k ≤ 8) (i : Nat) :
    (complement8 (2 ^ k - 1)).testBit i = (decide (i < 8) && !decide (i < k)) := by
  have hle : 2 ^ k - 1 < 2 ^ 8 := (Nat.sub_lt (Nat.two_pow_pos k) one_pos).trans_le (Nat.pow_le_pow_right two_pos hk)
  have hsucc : complement8 (2 ^ k - 1) = 2 ^ 8 - (2 ^ k - 1 + 1) := by unfold complement8; omega
  rw [hsucc, Nat.testBit_two_pow_sub_succ hle, Nat.testBit_two_pow_sub_one]

/-- The bits of a byte from k up are what division and multiplication by `2^k` keep. -/
theorem land_complement8_mask {k v : Nat} (hk : k ≤ 8) (hv : v < 2 ^ 8) :
    v &&& complement8 (2 ^ k - 1) = v / 2 ^ k * 2 ^ k := by
  refine Nat.eq_of_testBit_eq fun i => ?_
  rw [Nat.testBit_and, testBit_complement8_mask hk, Nat.testBit_mul_two_pow, Nat.testBit_div_two_pow]
  rcases lt_or_ge i k with hik | hki
  · simp [hik]
  · rw [Nat.sub_add_cancel hki]
    rcases lt_or_ge i 8 with hi8 | h8i
    · simp [hi8, hki]
    · simp [Nat.testBit_lt_two_pow (hv.trans_le (Nat.pow_le_pow_right two_pos h8i))]

/-! ### The low part of a byte (R105) -/

/-- The low part of a byte is the same for every bit width from 8. -/
theorem extract_min_eight {v : Nat} (n : Nat) (hv : v < 2 ^ 8) : extract (min n 8) v = extract n v := by
  rcases le_total n 8 with h | h
  · rw [min_eq_left h]
  · rw [min_eq_right h, extract, extract, Nat.mod_eq_of_lt hv,
      Nat.mod_eq_of_lt (hv.trans_le (Nat.pow_le_pow_right two_pos h))]

theorem extract_lt (n v : Nat) : extract n v < 2 ^ n := Nat.mod_lt _ (Nat.two_pow_pos n)

theorem extract_lt_min {v : Nat} (n : Nat) (hv : v < 2 ^ 8) : extract n v < 2 ^ min n 8 :=
  extract_min_eight n hv ▸ extract_lt _ v

theorem extract_of_lt {n v : Nat} (h : v < 2 ^ n) : extract n v = v := Nat.mod_eq_of_lt h

/-- A value is its high part and its low part. -/
theorem div_mul_eq_sub_extract (n v : Nat) : v / 2 ^ n * 2 ^ n = v - extract n v :=
  Nat.eq_sub_of_add_eq (Nat.div_add_mod' v (2 ^ n))

theorem land_mask8 {v : Nat} (n : Nat) (hv : v < 2 ^ 8) : v &&& mask8 n = extract n v := by
  rw [mask8_eq, Nat.and_two_pow_sub_one_eq_mod, ← extract_min_eight n hv, extract]

theorem land_complement8_mask8 {v : Nat} (n : Nat) (hv : v < 2 ^ 8) :
    v &&& complement8 (mask8 n) = v / 2 ^ n * 2 ^ n := by
  rw [mask8_eq, land_complement8_mask (min_le_right n 8) hv, div_mul_eq_sub_extract, div_mul_eq_sub_extract,
    extract_min_eight n hv]

/-- A field below `2^n` meets no bit of the high part, so `|` and `+` agree (R104). -/
theorem packChannelMasked_eq {n v f : Nat} (hv : v < 2 ^ 8) (hf : f < 2 ^ n) :
    packChannelMasked n v f = packChannel n v f := by
  rw [packChannelMasked, packChannel, land_complement8_mask8 n hv, Nat.mul_comm, Nat.two_pow_add_eq_or_of_lt hf]

/-- Settles O50: each mask form at `min n 8` bits, where a byte's low part is the one at n bits. -/
theorem maskFormsAgreeWithDivAndMod : Obligations.MaskFormsAgreeWithDivAndMod := by
  intro n v _ hv
  have hv8 : v < 2 ^ 8 := Nat.lt_succ_of_le hv
  exact ⟨mask8_of_le, mask8_of_ge, land_mask8 n hv8, land_complement8_mask8 n hv8,
    fun f hf _ => packChannelMasked_eq hv8 hf⟩

/-! ### The fields of a label (R102, R103) -/

theorem field_zero (n label : Nat) : field n label 0 = label % 2 ^ n := by
  rw [field, Nat.zero_mul, Nat.pow_zero, Nat.div_one]

theorem field_one (n label : Nat) : field n label 1 = label / 2 ^ n % 2 ^ n := by
  rw [field, Nat.one_mul]

theorem field_two (n label : Nat) : field n label 2 = label / 2 ^ n / 2 ^ n % 2 ^ n := by
  rw [field, Nat.two_mul, Nat.pow_add, Nat.div_div_eq_div_mul]

theorem field_lt (n label c : Nat) : field n label c < 2 ^ n := Nat.mod_lt _ (Nat.two_pow_pos n)

theorem field_le_div (n label c : Nat) : field n label c ≤ label / 2 ^ (c * n) := Nat.mod_le _ _

theorem field_of_label_zero (n c : Nat) : field n 0 c = 0 := by
  rw [field, Nat.zero_div, Nat.zero_mod]

/-- Field c is the bits of the label from `c*n`. -/
theorem testBit_field (n label c i : Nat) :
    (field n label c).testBit i = (decide (i < n) && label.testBit (i + c * n)) := by
  rw [field, Nat.testBit_mod_two_pow, Nat.testBit_div_two_pow]

/-- The maximum label is ones only, so each of its fields is. -/
theorem field_of_label_max (n : Nat) {c : Nat} (hc : c < 3) : field n (2 ^ (3 * n) - 1) c = 2 ^ n - 1 := by
  refine Nat.eq_of_testBit_eq fun i => ?_
  have hcn : c * n ≤ 2 * n := Nat.mul_le_mul_right n (Nat.le_of_lt_succ hc)
  have hin (h : i < n) : i + c * n < 3 * n := by omega
  simpa [testBit_field, Nat.testBit_two_pow_sub_one] using hin

theorem two_pow_three_mul (n : Nat) : 2 ^ (3 * n) = 2 ^ n * 2 ^ n * 2 ^ n := by ring

/-- A label is in range exactly when three divisions leave nothing (R102). -/
theorem inRange_iff_div_eq_zero (n label : Nat) :
    inRange n (label : Int) = true ↔ label / 2 ^ n / 2 ^ n / 2 ^ n = 0 := by
  rw [inRange_natCast, two_pow_three_mul, Nat.div_div_eq_div_mul, Nat.div_div_eq_div_mul,
    Nat.div_eq_zero_iff_lt (by positivity), Nat.mul_assoc]

theorem inRange_of_neg (n : Nat) {z : Int} (h : z < 0) : inRange n z = false := by
  rw [inRange, decide_eq_false (Int.not_le.mpr h), Bool.false_and]

/-- Settles O51: each clause is a rule of `field` or of `inRange`. -/
theorem fieldsAreSuccessiveRemainders : Obligations.FieldsAreSuccessiveRemainders := by
  intro n label _
  exact ⟨field_zero n label, field_one n label, field_two n label,
    fun c _ => ⟨field_lt n label c, fun h => (field_le_div n label c).trans (Nat.div_le_div_right h)⟩,
    fun c hc => ⟨field_of_label_zero n c, field_of_label_max n hc⟩,
    inRange_iff_div_eq_zero n label, fun z => inRange_of_neg n⟩

/-! ### The label of three fields (R106, R108) -/

/-- The fields of a label make its low `3n` bits again. -/
theorem join_field (n label : Nat) :
    join n (field n label 0) (field n label 1) (field n label 2) = label % 2 ^ (3 * n) := by
  rw [field_zero, field_one, field_two, join, two_pow_three_mul, Nat.mod_mul, Nat.mod_mul, Nat.two_mul, Nat.pow_add,
    ← Nat.div_div_eq_div_mul]
  ring

theorem join_low_lt {n fr fg k : Nat} (hr : fr < 2 ^ n) (hg : fg < 2 ^ k) : fg * 2 ^ n + fr < 2 ^ (n + k) := by
  calc fg * 2 ^ n + fr < fg * 2 ^ n + 2 ^ n := Nat.add_lt_add_left hr _
    _ = (fg + 1) * 2 ^ n := (Nat.succ_mul _ _).symm
    _ ≤ 2 ^ k * 2 ^ n := Nat.mul_le_mul_right _ hg
    _ = 2 ^ (n + k) := by rw [← Nat.pow_add, Nat.add_comm]

theorem join_lt {n fr fg fb k : Nat} (hr : fr < 2 ^ n) (hg : fg < 2 ^ n) (hb : fb < 2 ^ k) :
    join n fr fg fb < 2 ^ (2 * n + k) := by
  have hlow : fg * 2 ^ n + fr < 2 ^ (2 * n) := n.two_mul ▸ join_low_lt hr hg
  rw [join, Nat.add_assoc]
  exact join_low_lt hlow hb

/-- With nothing between bit k and bit k + m, these bits read 0. -/
theorem bits_between_eq_zero {k lo : Nat} (m hi : Nat) (h : lo < 2 ^ k) :
    (hi * 2 ^ (k + m) + lo) / 2 ^ k % 2 ^ m = 0 := by
  have hdiv : (hi * 2 ^ (k + m) + lo) / 2 ^ k = hi * 2 ^ m := by
    rw [Nat.pow_add, ← Nat.mul_assoc, Nat.mul_right_comm, Nat.add_comm, Nat.add_mul_div_right _ _ (Nat.two_pow_pos k),
      Nat.div_eq_of_lt h, Nat.zero_add]
  rw [hdiv, Nat.mul_mod_left]

/-- Three bytes placed 8 or more bits apart leave the bits between the first two zero. -/
theorem join_low_gap {n fr : Nat} (fg fb : Nat) (hn : 8 ≤ n) (hr : fr < 2 ^ 8) :
    join n fr fg fb / 2 ^ 8 % 2 ^ (n - 8) = 0 := by
  have hjoin : join n fr fg fb = (fb * 2 ^ n + fg) * 2 ^ (8 + (n - 8)) + fr := by
    rw [Nat.add_sub_cancel' hn, join, Nat.two_mul, Nat.pow_add]
    ring
  rw [hjoin]
  exact bits_between_eq_zero _ _ hr

/-- The same between the second and the third. -/
theorem join_high_gap {n fr fg : Nat} (fb : Nat) (hn : 8 ≤ n) (hr : fr < 2 ^ n) (hg : fg < 2 ^ 8) :
    join n fr fg fb / 2 ^ (n + 8) % 2 ^ (n - 8) = 0 := by
  have hpow : 2 * n = n + 8 + (n - 8) := by omega
  rw [join, Nat.add_assoc, hpow]
  exact bits_between_eq_zero _ _ (join_low_lt hr hg)

/-- A label of three fields is what a sample of these three bytes carries. -/
theorem unpackSample_of_lt {n r g b : Nat} (hr : r < 2 ^ n) (hg : g < 2 ^ n) (hb : b < 2 ^ n) :
    unpackSample n r g b = join n r g b := by
  rw [unpackSample, extract_of_lt hr, extract_of_lt hg, extract_of_lt hb]

theorem unpackSample_lt {b : Nat} (n r g : Nat) (hb : b < 2 ^ 8) : unpackSample n r g b < 2 ^ (2 * n + min n 8) :=
  join_lt (extract_lt n r) (extract_lt n g) (extract_lt_min n hb)

/-- The fields of a label in range are a sample that carries it. -/
theorem unpackSample_field {n label : Nat} (h : label < 2 ^ (3 * n)) :
    unpackSample n (field n label 0) (field n label 1) (field n label 2) = label := by
  rw [unpackSample_of_lt (field_lt ..) (field_lt ..) (field_lt ..), join_field, Nat.mod_eq_of_lt h]

/-- Settles O53: the range and the zero bits are those of `join` on low parts of bytes, and a label is reached from its
own fields, which are bytes. -/
theorem samplesCarryEveryLabelInRange : Obligations.SamplesCarryEveryLabelInRange := by
  refine fun n _ => ⟨fun r g b hr hg hb => ⟨rfl, unpackSample_lt n r g (Nat.lt_succ_of_le hb), ?_, fun hn => ?_⟩,
    fun hn label hlabel => ?_⟩
  · exact Nat.pow_le_pow_right two_pos (by omega)
  · have hr8 : extract n r < 2 ^ 8 := (Nat.mod_le _ _).trans_lt (Nat.lt_succ_of_le hr)
    have hg8 : extract n g < 2 ^ 8 := (Nat.mod_le _ _).trans_lt (Nat.lt_succ_of_le hg)
    exact ⟨join_low_gap _ _ hn.le hr8, join_high_gap _ hn.le (extract_lt n r) hg8⟩
  · have hbyte (c : Nat) : field n label c ≤ 255 :=
      Nat.le_of_lt_succ ((field_lt n label c).trans_le (Nat.pow_le_pow_right two_pos hn))
    exact ⟨_, _, _, hbyte 0, hbyte 1, hbyte 2, unpackSample_field hlabel⟩

end Sys2Proof.Machine

/-! The configuration (41_configuration): when `CFG` raises its one error, and what it does in each case. The proofs of
the statements about `41_configuration` follow. -/

namespace Sys2Proof.Machine

/-! ### The check of CFG (R120) -/

/-- `CFG` raises in the two cases of R121 and R123, and never another kind. -/
theorem cfgError_eq_some_iff {now n : BitVec 4} {k : ErrorKind} :
    cfgError now n = some k ↔ k = .configurationError ∧ (now ≠ 0#4 ∨ n = 0#4) := by
  have hpos : n.toNat ≤ 0 ↔ n = 0#4 := by rw [Nat.le_zero, ← BitVec.toNat_inj, BitVec.toNat_zero]
  rw [cfgError]
  split_ifs with hnow hn
  · simp only [hnow, Option.some.injEq, eq_comm, true_or, and_true, ne_eq, not_false_eq_true]
  · simp only [hpos.mp hn, Option.some.injEq, eq_comm, or_true, and_true]
  · exact iff_of_false nofun fun h => h.2.elim hnow (mt hpos.mpr hn)

/-- On an unconfigured codec every positive width passes: no upper bound is checked (R122). -/
theorem cfgError_zero_of_ne_zero {n : BitVec 4} (h : n ≠ 0#4) : cfgError 0#4 n = none :=
  Option.eq_none_iff_forall_ne_some.mpr fun _ hk =>
    (cfgError_eq_some_iff.mp hk).2.elim (absurd rfl) h

/-! ### The meaning of CFG -/

theorem exec_cfg (n : BitVec 4) (s : State) :
    exec (.cfg n) s = .next (finish (cfgError s.bitWidth n) (fun s => s.setBitWidth n) s) := rfl

theorem Status.word_configurationError : Status.word (.error .configurationError) = 1#32 := rfl

/-- A `CFG` that raises changes the response alone (60_exceptions R200). -/
theorem exec_cfg_of_raises {n : BitVec 4} {s : State} (h : s.bitWidth ≠ 0#4 ∨ n = 0#4) :
    exec (.cfg n) s = .next { s with response := some 1#32 } := by
  rw [exec_cfg, cfgError_eq_some_iff.mpr ⟨rfl, h⟩, finish_some, raise, State.respond, Status.word_configurationError]

/-! ### The statements -/

/-- Settles O26: the check passes, so `CFG` takes its effect and returns OK. -/
theorem cfgSetsTheBitWidthOnce : Obligations.CfgSetsTheBitWidthOnce := by
  intro s n hzero hn
  calc exec (.cfg n) s = .next (returnOk (s.setBitWidth n)) := by
        rw [exec_cfg, hzero, cfgError_zero_of_ne_zero hn, finish_none]
    _ = .next { s with bitWidth := n, response := some 0#32 } := by
        rw [returnOk, State.respond, State.setBitWidth, Status.word_ok]

/-- Settles O27: a configured codec is the first case in which `CFG` raises. -/
theorem cfgOnAConfiguredCodecFails : Obligations.CfgOnAConfiguredCodecFails :=
  fun _ _ hconfigured => exec_cfg_of_raises (.inl hconfigured)

/-- Settles O28: the width 0 is the second, whatever the register holds. -/
theorem cfgRejectsZero : Obligations.CfgRejectsZero :=
  fun _ => exec_cfg_of_raises (.inr rfl)

end Sys2Proof.Machine

/-! The encoder (42_encode): the value of one encoded element, the check that each error comes from, what a success does,
and the pseudocode's loop as one block write. The proofs of the statements about `42_encode` follow. -/

namespace Sys2Proof.Machine

/-! ### One channel (R104, R136) -/

theorem packChannel_div {n f : Nat} (v : Nat) (hf : f < 2 ^ n) : packChannel n v f / 2 ^ n = v / 2 ^ n := by
  rw [packChannel, Nat.add_comm, Nat.add_mul_div_right _ _ (Nat.two_pow_pos n), Nat.div_eq_of_lt hf, Nat.zero_add]

theorem packChannel_mod {n f : Nat} (v : Nat) (hf : f < 2 ^ n) : packChannel n v f % 2 ^ n = f := by
  rw [packChannel, Nat.mul_add_mod_self_right, Nat.mod_eq_of_lt hf]

/-- A packed channel is a byte again: up to 8 bits the field fills the low part of one, and above 8 bits the byte has no
high part, so the field alone is left. -/
theorem packChannel_lt {n v f : Nat} (hv : v < 2 ^ 8) (hf : f < 2 ^ n) (hf8 : f < 2 ^ 8) :
    packChannel n v f < 2 ^ 8 := by
  rcases le_total n 8 with hn | hn
  · have hsum : n + (8 - n) = 8 := Nat.add_sub_cancel' hn
    have hhigh : v / 2 ^ n < 2 ^ (8 - n) := Nat.div_lt_of_lt_mul (by rwa [← Nat.pow_add, hsum])
    exact hsum ▸ join_low_lt hf hhigh
  · have hhigh : v / 2 ^ n = 0 := Nat.div_eq_of_lt (hv.trans_le (Nat.pow_le_pow_right two_pos hn))
    rwa [packChannel, hhigh, Nat.zero_mul, Nat.zero_add]

/-- The byte `ENC` writes holds the packed channel in full. -/
theorem encElement_toNat (n : Nat) (imgIn labIn : Space 8) (h w c y x : Nat) :
    (encElement n imgIn labIn h w c y x).toNat =
      packChannel n (imgIn.read (imgIndex h w c y x)).toNat (field n (labIn.read (labIndex w y x)).toNat c) := by
  have hbyte : field n (labIn.read (labIndex w y x)).toNat c < 2 ^ 8 :=
    ((field_le_div _ _ _).trans (Nat.div_le_self _ _)).trans_lt (BitVec.isLt _)
  exact Nat.mod_eq_of_lt (packChannel_lt (BitVec.isLt _) (field_lt ..) hbyte)

/-! ### The checks (R130 to R133) -/

theorem labelsInRange_iff_labelsBelow {n h w : Nat} {lab : Space 8} :
    labelsInRange n lab h w = true ↔ LabelsBelow n h w lab := by
  simp only [labelsInRange_eq_true, inRange_natCast]
  exact forall_congr' fun y => forall_comm

section Checks

variable {now : BitVec 4} {lab : Space 8} {ie le ir lr : BitVec 2} {c : BitVec 8} {ih iw lh lw : BitVec 16}

theorem encError_of_unconfigured (hnow : now = 0#4) :
    encError now lab ie le ir lr c ih iw lh lw = some .configurationError := by
  rw [encError, if_pos hnow]

theorem encError_of_wrongType (hnow : now ≠ 0#4) (htag : ie ≠ 0#2 ∨ le ≠ 0#2) :
    encError now lab ie le ir lr c ih iw lh lw = some .typeError := by
  rw [encError, if_neg hnow, if_pos (htag.imp isU8_eq_false.mpr isU8_eq_false.mpr)]

/-- With the width and the types good, what is left is the shape check and the label check. -/
theorem encError_of_u8 (hnow : now ≠ 0#4) :
    encError now lab 0#2 0#2 ir lr c ih iw lh lw =
      if ir ≠ 3#2 ∨ c ≠ 3#8 ∨ lr ≠ 2#2 ∨ ih ≠ lh ∨ iw ≠ lw then some .shapeMismatchError
      else if labelsInRange now.toNat lab lh.toNat lw.toNat = false then some .rangeError
      else none := by
  have htag : ¬ (isU8 0#2 = false ∨ isU8 0#2 = false) := by decide
  rw [encError, if_neg hnow, if_neg htag]
  simp only [ne_eq, ← BitVec.toNat_inj, BitVec.toNat_ofNat]

theorem encError_of_wrongShape (hnow : now ≠ 0#4)
    (hshape : ir ≠ 3#2 ∨ c ≠ 3#8 ∨ lr ≠ 2#2 ∨ ih ≠ lh ∨ iw ≠ lw) :
    encError now lab 0#2 0#2 ir lr c ih iw lh lw = some .shapeMismatchError := by
  rw [encError_of_u8 hnow, if_pos hshape]

/-- With the shapes good too, the label check alone is left. -/
theorem encError_of_shaped (hnow : now ≠ 0#4) (h w : BitVec 16) :
    encError now lab 0#2 0#2 3#2 2#2 3#8 h w h w =
      if labelsInRange now.toNat lab h.toNat w.toNat = false then some .rangeError else none := by
  rw [encError_of_u8 hnow, if_neg (by simp)]

end Checks

/-! ### The meaning of ENC -/

/-- An `ENC` that raises changes the response alone (60_exceptions R200). -/
theorem exec_enc_of_raises {s : State} {ie le ir lr : BitVec 2} {c : BitVec 8} {ih iw lh lw : BitVec 16} {k : ErrorKind}
    (h : encError s.bitWidth s.mem.labIn ie le ir lr c ih iw lh lw = some k) :
    exec (.enc ie le ir lr c ih iw lh lw) s = .next { s with response := some (Status.word (.error k)) } := by
  rw [exec_enc, h, finish_some, raise, State.respond]

/-- With every check good, `ENC` takes its effect and returns OK. -/
theorem exec_enc_of_labelsBelow {s : State} {h w : BitVec 16} (hn : s.bitWidth ≠ 0#4)
    (hlab : LabelsBelow s.n h.toNat w.toNat s.mem.labIn) :
    exec (.enc 0#2 0#2 3#2 2#2 3#8 h w h w) s = .next (returnOk (encEffect h.toNat w.toNat s)) := by
  have hrange : ¬ labelsInRange s.bitWidth.toNat s.mem.labIn h.toNat w.toNat = false :=
    ne_false_of_eq_true (labelsInRange_iff_labelsBelow.mpr hlab)
  rw [exec_enc, encError_of_shaped hn, if_neg hrange, finish_none]

/-- An `ENC` that answers OK took its effect. -/
theorem eq_of_exec_enc_ok {s t : State} {ie le ir lr : BitVec 2} {c : BitVec 8} {ih iw lh lw : BitVec 16}
    (h : exec (.enc ie le ir lr c ih iw lh lw) s = .next t) (hok : t.response = some 0#32) :
    t = returnOk (encEffect ih.toNat iw.toNat s) := by
  rw [exec_enc] at h
  cases h
  rw [finish_response_ok_iff.mp hok, finish_none]

/-! ### The effect of ENC -/

/-- Each element of the shape holds the packed channel (R136). -/
theorem encEffect_read_toNat {h w c y x : Nat} (s : State) (hc : c < Config.nch) (hy : y < h) (hx : x < w) :
    ((encEffect h w s).mem.imgOut.read (imgIndex h w c y x)).toNat =
      packChannel s.n (s.mem.imgIn.read (imgIndex h w c y x)).toNat
        (field s.n (s.mem.labIn.read (labIndex w y x)).toNat c) := by
  rw [encEffect_read s hc hy hx, encElement_toNat]

/-- An index that is no element's lies beyond the shape. -/
theorem le_of_ne_imgIndex {h w k : Nat} (hk : ∀ c y x, c < Config.nch → y < h → x < w → k ≠ imgIndex h w c y x) :
    Config.nch * (h * w) ≤ k := by
  by_contra hlt
  obtain ⟨c, y, x, hc, hy, hx, e⟩ := imgIndex_surjective (Nat.lt_of_not_le hlt)
  exact hk c y x hc hy hx e

theorem Space.writeBlock_nil {w : Nat} (m : Space w) : m.writeBlock [] = m := by
  simp [Space.writeBlock, Space.cellsFrom]

/-- With no element in the shape the effect is nothing at all (R140). -/
theorem encEffect_of_empty {h w : Nat} (s : State) (hempty : h = 0 ∨ w = 0) : encEffect h w s = s := by
  have himage : encImage s.n s.mem.imgIn s.mem.labIn h w = [] := by
    rw [← List.length_eq_zero_iff, encImage_length, Nat.mul_eq_zero.mpr hempty, Nat.mul_zero]
  rw [encEffect, himage, Space.writeBlock_nil, State.setImgOut]

/-- No label of an empty grid is out of range (R140). -/
theorem labelsBelow_of_empty {n h w : Nat} (lab : Space 8) (hempty : h = 0 ∨ w = 0) : LabelsBelow n h w lab := by
  intro y x hy hx
  omega

/-! ### A loop of single-element writes -/

theorem Space.wf_foldl_write {w : Nat} (g : Nat → BitVec w) (ks : List Nat) (m : Space w) (h : m.wf) :
    Space.wf (ks.foldl (fun m k => m.write k (g k)) m) := by
  induction ks generalizing m with
  | nil => exact h
  | cons i ks ih => exact ih _ (Space.wf_write m i (g i) h)

/-- What a space reads after a loop that writes `g k` at each index k of a list. -/
theorem Space.read_foldl_write {w : Nat} (g : Nat → BitVec w) (ks : List Nat) (m : Space w) (k : Nat) :
    (ks.foldl (fun m k => m.write k (g k)) m).read k = if k ∈ ks then g k else m.read k := by
  induction ks generalizing m with
  | nil => simp
  | cons i ks ih =>
    rw [List.foldl_cons, ih, Space.read_write]
    by_cases hi : k = i <;> simp [hi]

/-- A loop over all the indices of a block, in any order, is the block write, as data on a canonical space
(20_memory R55). -/
theorem Space.foldl_write_eq_writeBlock {w : Nat} {m : Space w} {vals : List (BitVec w)} {ks : List Nat} (h : m.wf)
    (hks : ∀ k, k ∈ ks ↔ k < vals.length) :
    ks.foldl (fun m k => m.write k (vals.getD k (Config.unwritten w))) m = m.writeBlock vals := by
  refine Space.eq_of_read _ _ (Space.wf_foldl_write _ ks m h) (Space.wf_writeBlock m vals h) fun k => ?_
  simp only [Space.read_foldl_write (fun k => vals.getD k (Config.unwritten w)), Space.read_writeBlock, hks]

/-! ### The pseudocode's loop (R130) -/

/-- The indices of an image in the order in which the pseudocode writes them: for y, for x, for c. -/
def encOrder (h w : Nat) : List Nat :=
  (List.range h).flatMap fun y => (List.range w).flatMap fun x => (List.range 3).map fun c => imgIndex h w c y x

theorem mem_encOrder {h w k : Nat} : k ∈ encOrder h w ↔ k < Config.nch * (h * w) := by
  simp only [encOrder, List.mem_flatMap, List.mem_map, List.mem_range]
  constructor
  · rintro ⟨y, hy, x, hx, c, hc, rfl⟩
    exact imgIndex_lt hc hy hx
  · intro hk
    obtain ⟨c, y, x, hc, hy, hx, rfl⟩ := imgIndex_surjective hk
    exact ⟨y, hy, x, hx, c, hc, rfl⟩

/-- The three nested loops are one loop over the indices, which writes the encoded image's element at each. -/
theorem encLoop_eq_foldl (n : Nat) (imgIn labIn : Space 8) (h w : Nat) (out : Space 8) :
    encLoop n imgIn labIn h w out = (encOrder h w).foldl
      (fun m k => m.write k ((encImage n imgIn labIn h w).getD k (Config.unwritten 8))) out := by
  simp only [encLoop, encOrder, List.foldl_flatMap, List.foldl_map]
  refine List.foldl_ext _ _ _ fun m y hy => List.foldl_ext _ _ _ fun m x hx => List.foldl_ext _ _ _ fun m c hc => ?_
  rw [encImage_getD n imgIn labIn (List.mem_range.mp hc) (List.mem_range.mp hy) (List.mem_range.mp hx), encElement]

theorem encLoop_eq_writeBlock (n : Nat) (imgIn labIn : Space 8) (h w : Nat) {out : Space 8} (hout : out.wf) :
    encLoop n imgIn labIn h w out = out.writeBlock (encImage n imgIn labIn h w) := by
  rw [encLoop_eq_foldl]
  exact Space.foldl_write_eq_writeBlock hout fun k => by rw [mem_encOrder, encImage_length]

/-! ### The statements -/

/-- Settles O30: the checks pass, each element is the packed channel, whose field c is that of the formula, and an index
that is no element's is beyond the block. -/
theorem encPacksEveryLabel : Obligations.EncPacksEveryLabel := by
  intro s h w hn hlab
  refine ⟨_, exec_enc_of_labelsBelow hn hlab, congrArg some Status.word_ok, rfl, rfl, rfl, rfl, rfl, rfl, rfl,
    fun y x hy hx => ?_, fun k hk => ?_⟩
  · have hread (c : Nat) (hc : c < Config.nch) := encEffect_read_toNat s hc hy hx
    rw [returnOk_mem, hread 0 (by decide), hread 1 (by decide), hread 2 (by decide), field_zero, field_one]
    exact ⟨rfl, rfl, rfl⟩
  · rw [returnOk_mem, encEffect_read_beyond s (le_of_ne_imgIndex hk)]

/-- Settles O31: each clause is the error that the checks find when those before pass. -/
theorem encReportsEachFailingCheck : Obligations.EncReportsEachFailingCheck := by
  intro s ie le ir lr c ih iw lh lw
  refine ⟨fun hn => ?_, fun hn htag => ?_, ?_, ?_⟩
  · exact exec_enc_of_raises (encError_of_unconfigured hn)
  · exact exec_enc_of_raises (encError_of_wrongType hn htag)
  · rintro hn rfl rfl hshape
    exact exec_enc_of_raises (encError_of_wrongShape hn hshape)
  · rintro hn rfl rfl rfl rfl rfl rfl rfl ⟨y, x, hy, hx, hlabel⟩
    have hrange : labelsInRange s.bitWidth.toNat s.mem.labIn ih.toNat iw.toNat = false :=
      Bool.eq_false_iff.mpr fun hall =>
        (labelsInRange_iff_labelsBelow.mp hall y x hy hx).not_ge hlabel
    exact exec_enc_of_raises ((encError_of_shaped hn ih iw).trans (if_pos hrange))

/-- Settles O33: quotient and remainder of a packed channel. -/
theorem encKeepsHighBitsAndReplacesLowBits : Obligations.EncKeepsHighBitsAndReplacesLowBits := by
  intro s t h w hexec hok c y x hc hy hx
  obtain rfl := eq_of_exec_enc_ok hexec hok
  rw [returnOk_mem, encEffect_read_toNat s hc hy hx]
  exact ⟨packChannel_div _ (field_lt ..), packChannel_mod _ (field_lt ..)⟩

/-- Settles O34: an empty grid passes the label check, and the effect on an empty image is nothing. -/
theorem encOfAnEmptyImageWritesNothing : Obligations.EncOfAnEmptyImageWritesNothing := by
  intro s h w hn hzero
  have hempty : h.toNat = 0 ∨ w.toNat = 0 := hzero.imp (congrArg BitVec.toNat) (congrArg BitVec.toNat)
  rw [exec_enc_of_labelsBelow hn (labelsBelow_of_empty _ hempty), encEffect_of_empty s hempty, returnOk, State.respond,
    Status.word_ok]

/-- Settles O39: the effect's block write is the loop. -/
theorem encIsThePseudocodesLoop : Obligations.EncIsThePseudocodesLoop := by
  intro s t h w hwf hexec hok
  obtain rfl := eq_of_exec_enc_ok hexec hok
  rw [encLoop_eq_writeBlock _ _ _ _ _ hwf, returnOk_mem, encEffect, State.setImgOut_mem_imgOut]

end Sys2Proof.Machine

/-! The decoder (43_decode): the value of one decoded label, the check that each error comes from, what a success does,
and the pseudocode's loop as one block write. The proofs of the statements about `43_decode` follow. -/

namespace Sys2Proof.Machine

/-! ### One label (R108, R153) -/

/-- A label of the widest codec, `2*15 + 8` bits, just fits an element of `LAB_OUT` (20_memory R48). -/
theorem unpackSample_lt_labelWord {n b : Nat} (r g : Nat) (hn : n < 16) (hb : b < 2 ^ 8) :
    unpackSample n r g b < 2 ^ 38 :=
  (unpackSample_lt n r g hb).trans_le (Nat.pow_le_pow_right two_pos (by omega))

/-- The word `DEC` writes holds the label of the record in full. -/
theorem decElement_toNat {n : Nat} (hn : n < 16) (smpIn : Space 8) (i : Nat) :
    (decElement n smpIn i).toNat = unpackSample n (smpIn.read (smpIndex i 3)).toNat
      (smpIn.read (smpIndex i 4)).toNat (smpIn.read (smpIndex i 5)).toNat :=
  Nat.mod_eq_of_lt (unpackSample_lt_labelWord _ _ hn (BitVec.isLt _))

/-- A label is made from the low parts of three fields of its record and from nothing else (R154). -/
theorem decElement_congr {n i j : Nat} {smp smp' : Space 8}
    (h : ∀ f, f = 3 ∨ f = 4 ∨ f = 5 →
      extract n (smp.read (smpIndex i f)).toNat = extract n (smp'.read (smpIndex j f)).toNat) :
    decElement n smp i = decElement n smp' j := by
  rw [decElement, decElement, unpackSample, unpackSample, h 3 (by decide), h 4 (by decide), h 5 (by decide)]

/-! ### The checks (R150 to R152) -/

theorem decError_of_unconfigured {now : BitVec 4} (tag : BitVec 2) (f : BitVec 8) (hnow : now = 0#4) :
    decError now tag f = some .configurationError := by
  rw [decError, if_pos hnow]

theorem decError_of_wrongType {now : BitVec 4} {tag : BitVec 2} (f : BitVec 8) (hnow : now ≠ 0#4)
    (htag : tag ≠ 0#2) : decError now tag f = some .typeError := by
  rw [decError, if_neg hnow, if_pos (isU8_eq_false.mpr htag)]

theorem decError_of_wrongFields {now : BitVec 4} {f : BitVec 8} (hnow : now ≠ 0#4) (hf : f ≠ 6#8) :
    decError now 0#2 f = some .shapeMismatchError := by
  have htag : ¬ isU8 0#2 = false := by decide
  have hfields : f.toNat ≠ Config.nf := fun e => hf (BitVec.eq_of_toNat_eq e)
  rw [decError, if_neg hnow, if_neg htag, if_pos hfields]

theorem decError_of_records {now : BitVec 4} (hnow : now ≠ 0#4) : decError now 0#2 6#8 = none :=
  decError_eq_none.mpr ⟨hnow, isU8_eq_true.mpr rfl, rfl⟩

/-! ### The meaning of DEC -/

/-- A `DEC` that raises changes the response alone (60_exceptions R200). -/
theorem exec_dec_of_raises {s : State} {tag : BitVec 2} {f : BitVec 8} {k : ErrorKind} (ns : BitVec 32)
    (h : decError s.bitWidth tag f = some k) :
    exec (.dec tag f ns) s = .next { s with response := some (Status.word (.error k)) } := by
  rw [exec_dec, h, finish_some, raise, State.respond]

/-- On a configured codec `DEC` of 6-field 8-bit records takes its effect and returns OK. -/
theorem exec_dec_of_configured {s : State} (ns : BitVec 32) (hn : s.bitWidth ≠ 0#4) :
    exec (.dec 0#2 6#8 ns) s = .next (returnOk (decEffect ns.toNat s)) := by
  rw [exec_dec, decError_of_records hn, finish_none]

/-- A `DEC` that answers OK found no error and took its effect. -/
theorem eq_of_exec_dec_ok {s t : State} {tag : BitVec 2} {f : BitVec 8} {ns : BitVec 32}
    (h : exec (.dec tag f ns) s = .next t) (hok : t.response = some 0#32) :
    s.bitWidth ≠ 0#4 ∧ t = returnOk (decEffect ns.toNat s) := by
  rw [exec_dec] at h
  cases h
  have hnone := finish_response_ok_iff.mp hok
  exact ⟨(decError_eq_none.mp hnone).1, by rw [hnone, finish_none]⟩

/-! ### The effect of DEC -/

/-- Each element below the number of records holds that record's label (R153). -/
theorem decEffect_read_of_lt {ns i : Nat} (s : State) (hi : i < ns) :
    (decEffect ns s).mem.labOut.read i = decElement s.n s.mem.smpIn i := by
  rw [decEffect_read, if_pos hi]

theorem decEffect_read_toNat {ns i : Nat} (s : State) (hi : i < ns) :
    ((decEffect ns s).mem.labOut.read i).toNat = unpackSample s.n (s.mem.smpIn.read (smpIndex i 3)).toNat
      (s.mem.smpIn.read (smpIndex i 4)).toNat (s.mem.smpIn.read (smpIndex i 5)).toNat := by
  rw [decEffect_read_of_lt s hi, decElement_toNat s.n_lt]

/-- What `LAB_OUT` holds after the effect of `DEC`, beyond the records. -/
theorem decEffect_read_beyond {ns i : Nat} (s : State) (hi : ns ≤ i) :
    (decEffect ns s).mem.labOut.read i = s.mem.labOut.read i := by
  rw [decEffect_read, if_neg hi.not_gt]

/-- With no record the effect is nothing at all (R159). -/
theorem decEffect_zero (s : State) : decEffect 0 s = s := by
  have hlabels : decLabels s.n s.mem.smpIn 0 = [] := List.length_eq_zero_iff.mp (decLabels_length _ _ 0)
  rw [decEffect, hlabels, Space.writeBlock_nil, State.setLabOut]

/-! ### The pseudocode's loop (R150) -/

/-- The loop writes the decoded label of each record at its place. -/
theorem decLoop_eq_foldl (n : Nat) (smpIn : Space 8) (ns : Nat) (out : Space 38) :
    decLoop n smpIn ns out = (List.range ns).foldl
      (fun m i => m.write i ((decLabels n smpIn ns).getD i (Config.unwritten 38))) out := by
  refine List.foldl_ext _ _ _ fun m i hi => ?_
  rw [decLabels_getD n smpIn (List.mem_range.mp hi), decElement]

theorem decLoop_eq_writeBlock (n : Nat) (smpIn : Space 8) (ns : Nat) {out : Space 38} (hout : out.wf) :
    decLoop n smpIn ns out = out.writeBlock (decLabels n smpIn ns) := by
  rw [decLoop_eq_foldl]
  exact Space.foldl_write_eq_writeBlock hout fun i => by rw [List.mem_range, decLabels_length]

/-! ### The statements -/

/-- Settles O40: the checks pass, and each label is the join of the low parts of its record's bytes. -/
theorem decJoinsTheLowBits : Obligations.DecJoinsTheLowBits := by
  intro s ns hn
  refine ⟨_, exec_dec_of_configured ns hn, congrArg some Status.word_ok, rfl, rfl, rfl, rfl, rfl, rfl, rfl,
    fun i hi => ?_, fun i hi => ?_⟩
  · rw [returnOk_mem, decEffect_read_toNat s hi]
    rfl
  · rw [returnOk_mem, decEffect_read_beyond s hi]

/-- Settles O41: each clause is the error that the checks find when those before pass; the number of records is in none
of them. -/
theorem decReportsEachFailingCheck : Obligations.DecReportsEachFailingCheck := by
  intro s tag f ns
  refine ⟨fun hn => ?_, fun hn htag => ?_, ?_⟩
  · exact exec_dec_of_raises ns (decError_of_unconfigured tag f hn)
  · exact exec_dec_of_raises ns (decError_of_wrongType f hn htag)
  · rintro hn rfl hf
    exact exec_dec_of_raises ns (decError_of_wrongFields hn hf)

/-- Settles O42: the codec of the second command is configured like that of the first, so it succeeds too, and both
labels are made from equal low parts. -/
theorem decDependsOnTheLowBitsAlone : Obligations.DecDependsOnTheLowBitsAlone := by
  intro s s' t t' ns ns' i j hbits hexec hexec' hok hi hj hlow
  obtain ⟨hn, rfl⟩ := eq_of_exec_dec_ok hexec hok
  rw [exec_dec_of_configured ns' (hbits ▸ hn)] at hexec'
  cases hexec'
  have hwidth : s'.n = s.n := congrArg BitVec.toNat hbits.symm
  rw [returnOk_mem, returnOk_mem, decEffect_read_of_lt s hi, decEffect_read_of_lt s' hj, hwidth]
  exact decElement_congr hlow

/-- Settles O43: the bound on an unpacked sample, whose exponent is `3N` up to 8 and at most 6 up to 2. -/
theorem decodedLabelsAreBounded : Obligations.DecodedLabelsAreBounded := by
  intro s t ns i hexec hok hi
  obtain ⟨-, rfl⟩ := eq_of_exec_dec_ok hexec hok
  rw [returnOk_mem, decEffect_read_toNat s hi, State.classBits_toNat]
  have hlt := unpackSample_lt s.n (s.mem.smpIn.read (smpIndex i 3)).toNat (s.mem.smpIn.read (smpIndex i 4)).toNat
    (s.mem.smpIn.read (smpIndex i 5)).isLt
  refine ⟨hlt, fun hn => ?_, fun hn => ?_⟩
  · have hexp : 2 * s.n + min s.n 8 ≤ 3 * s.n := by omega
    exact hlt.trans_le (Nat.pow_le_pow_right two_pos hexp)
  · have hexp : 2 * s.n + min s.n 8 ≤ 6 := by omega
    exact Nat.le_of_lt_succ (hlt.trans_le (Nat.pow_le_pow_right two_pos hexp))

/-- Settles O45: the effect's block write is the loop. -/
theorem decIsThePseudocodesLoop : Obligations.DecIsThePseudocodesLoop := by
  intro s t ns hwf hexec hok
  obtain ⟨-, rfl⟩ := eq_of_exec_dec_ok hexec hok
  rw [decLoop_eq_writeBlock _ _ _ hwf, returnOk_mem, decEffect, State.setLabOut_mem_labOut]

/-- Settles O44: the checks pass, and the effect on no records is nothing. -/
theorem decOfNoRecordsWritesNothing : Obligations.DecOfNoRecordsWritesNothing := by
  intro s hn
  rw [exec_dec_of_configured _ hn, BitVec.toNat_ofNat, Nat.zero_mod, decEffect_zero, returnOk, State.respond,
    Status.word_ok]

end Sys2Proof.Machine

/-! The contract (44_contract_properties): the low part of an encoded channel, the label that three such channels carry, and
the labels `DEC` recovers from an image that `ENC` wrote. The proofs of the statements about `44_contract_properties`
follow. -/

namespace Sys2Proof.Machine

/-! ### The low parts of an encoded image (R172, R177) -/

/-- What `ENC` hides in a channel can be extracted again, whatever the image held. -/
theorem encEffect_extract {h w c y x : Nat} (s : State) (hc : c < Config.nch) (hy : y < h) (hx : x < w) :
    extract s.n ((encEffect h w s).mem.imgOut.read (imgIndex h w c y x)).toNat =
      field s.n (s.mem.labIn.read (labIndex w y x)).toNat c := by
  rw [encEffect_read_toNat s hc hy hx]
  exact packChannel_mod _ (field_lt ..)

/-! ### The label of an encoded pixel (R170) -/

/-- Three bytes whose low parts are the fields of a label in range carry it, whatever their high parts. -/
theorem unpackSample_of_extract {n r g b label : Nat} (hlabel : label < 2 ^ (3 * n)) (hr : extract n r = field n label 0)
    (hg : extract n g = field n label 1) (hb : extract n b = field n label 2) : unpackSample n r g b = label := by
  rw [unpackSample, hr, hg, hb, join_field, Nat.mod_eq_of_lt hlabel]

/-- `DEC` recovers the label of pixel (y, x) from the record that carries the pixel as `ENC` wrote it. -/
theorem decEffect_read_of_encoded {h w y x : Nat} {s u : State} (hn : u.n = s.n)
    (hlab : LabelsBelow s.n h w s.mem.labIn) (hcarries : CarriesPixels h w (encEffect h w s).mem.imgOut u.mem.smpIn)
    (hy : y < h) (hx : x < w) :
    ((decEffect (h * w) u).mem.labOut.read (labIndex w y x)).toNat = (s.mem.labIn.read (labIndex w y x)).toNat := by
  obtain ⟨hr, hg, hb⟩ := hcarries y x hy hx
  have hlow (c : Nat) (hc : c < Config.nch) := encEffect_extract s hc hy hx
  rw [decEffect_read_toNat u (labIndex_lt hy hx), hn, hr, hg, hb]
  exact unpackSample_of_extract (hlab y x hy hx) (hlow 0 (by decide)) (hlow 1 (by decide)) (hlow 2 (by decide))

/-- The pixels of the largest image can be counted in the 32 bits of `ns` (30_encoding R81). -/
theorem toNat_sampleCount (h w : BitVec 16) : (BitVec.ofNat 32 (h.toNat * w.toNat)).toNat = h.toNat * w.toNat := by
  have hlt : h.toNat * w.toNat < 2 ^ 16 * 2 ^ 16 := Nat.mul_lt_mul'' h.isLt w.isLt
  exact Nat.mod_eq_of_lt hlt

/-! ### The statements -/

/-- Settles O47: the label check passes, `DEC` on a configured codec succeeds, and each record carries its pixel's label. -/
theorem decodingTheEncodedImageRecoversTheLabels : Obligations.DecodingTheEncodedImageRecoversTheLabels := by
  intro s h w hn hlab
  refine ⟨_, exec_enc_of_labelsBelow hn hlab, rfl, fun u hwidth hcarries => ?_⟩
  have hun : u.bitWidth ≠ 0#4 := hwidth ▸ hn
  refine ⟨_, exec_dec_of_configured _ hun, rfl, fun y x hy hx => ?_⟩
  rw [returnOk_mem] at hcarries ⊢
  rw [toNat_sampleCount]
  exact decEffect_read_of_encoded (congrArg BitVec.toNat hwidth) hlab hcarries hy hx

/-- Settles O35: the low part is the label's field, which is 0 for label 0 and ones only for the maximum label. That one is
a byte at `N` = 1 and 2 alone (R177), but the argument asks nothing of the width. -/
theorem boundaryLabelsClearOrSetTheLowBits : Obligations.BoundaryLabelsClearOrSetTheLowBits := by
  intro s t h w hexec hok c y x hc hy hx
  obtain rfl := eq_of_exec_enc_ok hexec hok
  have hlow := encEffect_extract s hc hy hx
  rw [extract] at hlow
  rw [returnOk_mem, hlow]
  refine ⟨fun hzero => ?_, fun _ hmax => ?_⟩
  · rw [hzero, field_of_label_zero]
  · rw [hmax, field_of_label_max s.n hc]

end Sys2Proof.Machine

/-! The errors (60_exceptions): the table's conditions of each command, the first of them that holds and the response it
gets, and the two ways in which a command ends. The proofs of the statements about `60_exceptions` follow. -/

namespace Sys2Proof.Machine

/-! ### When a condition of the table does not hold (R192 to R194) -/

section NotRaised

variable {ie le ir lr : BitVec 2} {c : BitVec 8} {ih iw lh lw : BitVec 16} {s : State}

theorem not_raisedWhen_typeError_enc :
    ¬ raisedWhen .typeError (.enc ie le ir lr c ih iw lh lw) s ↔ ie = 0#2 ∧ le = 0#2 := by
  simp only [raisedWhen, not_or, ne_eq, not_not]

theorem not_raisedWhen_shapeMismatchError_enc :
    ¬ raisedWhen .shapeMismatchError (.enc ie le ir lr c ih iw lh lw) s ↔
      ir = 3#2 ∧ c = 3#8 ∧ lr = 2#2 ∧ ih = lh ∧ iw = lw := by
  simp only [raisedWhen, not_or, ne_eq, not_not]

theorem not_raisedWhen_rangeError_enc :
    ¬ raisedWhen .rangeError (.enc ie le ir lr c ih iw lh lw) s ↔ LabelsBelow s.n lh.toNat lw.toNat s.mem.labIn := by
  simp only [raisedWhen, LabelsBelow, not_exists, not_and, not_le]

theorem not_raisedWhen_typeError_dec {tag : BitVec 2} {f : BitVec 8} {ns : BitVec 32} :
    ¬ raisedWhen .typeError (.dec tag f ns) s ↔ tag = 0#2 :=
  not_not

theorem not_raisedWhen_shapeMismatchError_dec {tag : BitVec 2} {f : BitVec 8} {ns : BitVec 32} :
    ¬ raisedWhen .shapeMismatchError (.dec tag f ns) s ↔ f = 6#8 :=
  not_not

end NotRaised

/-! ### The first condition that holds (R196) -/

/-- The condition of `k` holds, and that of no kind before `k` in the priority list. -/
def FirstRaised (k : ErrorKind) (i : Instr) (s : State) : Prop :=
  raisedWhen k i s ∧ ∀ k' : ErrorKind, k'.rank < k.rank → ¬ raisedWhen k' i s

/-- `CFG` has the conditions of one kind alone. -/
theorem exec_cfg_of_firstRaised {k : ErrorKind} {n : BitVec 4} {s : State} (h : FirstRaised k (.cfg n) s) :
    exec (.cfg n) s = .next { s with response := some (Status.word (.error k)) } := by
  obtain ⟨hk, -⟩ := h
  cases k with
  | configurationError => exact exec_cfg_of_raises (Or.symm hk)
  | typeError => exact hk.elim
  | shapeMismatchError => exact hk.elim
  | rangeError => exact hk.elim

/-- Each kind of `ENC` under the conditions that the kinds before it leave. -/
theorem exec_enc_of_firstRaised {k : ErrorKind} {ie le ir lr : BitVec 2} {c : BitVec 8} {ih iw lh lw : BitVec 16}
    {s : State} (h : FirstRaised k (.enc ie le ir lr c ih iw lh lw) s) :
    exec (.enc ie le ir lr c ih iw lh lw) s = .next { s with response := some (Status.word (.error k)) } := by
  obtain ⟨hk, hbefore⟩ := h
  obtain ⟨hconfig, htype, hshape, hrange⟩ := encReportsEachFailingCheck s ie le ir lr c ih iw lh lw
  cases k with
  | configurationError => exact hconfig hk
  | typeError => exact htype (hbefore .configurationError (by decide)) hk
  | shapeMismatchError =>
    obtain ⟨hie, hle⟩ := not_raisedWhen_typeError_enc.mp (hbefore .typeError (by decide))
    exact hshape (hbefore .configurationError (by decide)) hie hle hk
  | rangeError =>
    obtain ⟨hie, hle⟩ := not_raisedWhen_typeError_enc.mp (hbefore .typeError (by decide))
    obtain ⟨hir, hc, hlr, hh, hw⟩ :=
      not_raisedWhen_shapeMismatchError_enc.mp (hbefore .shapeMismatchError (by decide))
    exact hrange (hbefore .configurationError (by decide)) hie hle hir hc hlr hh hw hk

/-- `DEC` likewise, without a range check (R155). -/
theorem exec_dec_of_firstRaised {k : ErrorKind} {tag : BitVec 2} {f : BitVec 8} {ns : BitVec 32} {s : State}
    (h : FirstRaised k (.dec tag f ns) s) :
    exec (.dec tag f ns) s = .next { s with response := some (Status.word (.error k)) } := by
  obtain ⟨hk, hbefore⟩ := h
  obtain ⟨hconfig, htype, hshape⟩ := decReportsEachFailingCheck s tag f ns
  cases k with
  | configurationError => exact hconfig hk
  | typeError => exact htype (hbefore .configurationError (by decide)) hk
  | shapeMismatchError =>
    have htag := not_raisedWhen_typeError_dec.mp (hbefore .typeError (by decide))
    exact hshape (hbefore .configurationError (by decide)) htag hk
  | rangeError => exact hk.elim

theorem exec_of_firstRaised {k : ErrorKind} {i : Instr} {s : State} (h : FirstRaised k i s) :
    exec i s = .next { s with response := some (Status.word (.error k)) } := by
  cases i with
  | cfg n => exact exec_cfg_of_firstRaised h
  | enc ie le ir lr c ih iw lh lw => exact exec_enc_of_firstRaised h
  | dec tag f ns => exact exec_dec_of_firstRaised h

/-! ### No condition holds -/

/-- A command that no condition of the table stops takes its effect and returns OK. -/
theorem exec_of_noneRaised {i : Instr} {s : State} (h : ∀ k : ErrorKind, ¬ raisedWhen k i s) :
    ∃ u, exec i s = .next (returnOk u) := by
  cases i with
  | cfg n =>
    obtain ⟨hn, hnow⟩ := not_or.mp (h .configurationError)
    exact ⟨s.setBitWidth n, cfgSetsTheBitWidthOnce s n (not_not.mp hnow) hn⟩
  | enc ie le ir lr c ih iw lh lw =>
    obtain ⟨rfl, rfl⟩ := not_raisedWhen_typeError_enc.mp (h .typeError)
    obtain ⟨rfl, rfl, rfl, rfl, rfl⟩ := not_raisedWhen_shapeMismatchError_enc.mp (h .shapeMismatchError)
    have hlab := not_raisedWhen_rangeError_enc.mp (h .rangeError)
    exact ⟨_, exec_enc_of_labelsBelow (h .configurationError) hlab⟩
  | dec tag f ns =>
    obtain rfl := not_raisedWhen_typeError_dec.mp (h .typeError)
    obtain rfl := not_raisedWhen_shapeMismatchError_dec.mp (h .shapeMismatchError)
    exact ⟨_, exec_dec_of_configured ns (h .configurationError)⟩

/-! ### The two ways in which a command ends (R200) -/

theorem exec_raises_or_returnsOk (i : Instr) (s : State) :
    (∃ k, exec i s = .next (raise k s)) ∨ ∃ u, exec i s = .next (returnOk u) :=
  (exec_cases i s).imp_right fun h => by
    rcases h with ⟨_, -, -, e⟩ | ⟨_, _, _, _, _, _, _, _, _, -, -, e⟩ | ⟨_, _, _, -, -, e⟩ <;> exact ⟨_, e⟩

/-! ### The statements -/

/-- Settles O20: the first condition that holds is the check that fails, command by command, and with none the command
returns OK. -/
theorem theFirstFailingCheckIsReported : Obligations.TheFirstFailingCheckIsReported := by
  intro i s
  refine ⟨fun k hk hbefore => exec_of_firstRaised ⟨hk, hbefore⟩, fun hnone => ?_⟩
  obtain ⟨u, hexec⟩ := exec_of_noneRaised hnone
  exact ⟨returnOk u, hexec, returnOk_response u⟩

/-- Settles O21: a command that raises changes the response alone, and one that returns OK does not answer with the word of
an error. -/
theorem failedCommandChangesNothing : Obligations.FailedCommandChangesNothing := by
  intro i s t k hexec hresp
  rcases exec_raises_or_returnsOk i s with ⟨k', e⟩ | ⟨u, e⟩ <;> rw [e] at hexec <;> cases hexec
  · have hword : Status.error k' = .error k := Status.word_injective (Option.some.inj hresp)
    rw [← hword, raise, State.respond]
  · have hword : Status.ok = .error k := Status.word_injective (Option.some.inj hresp)
    exact Status.noConfusion hword

end Sys2Proof.Machine

/-! Reset and hazards (70_reset): the step on a command that reset abandons, and what is left of each output space. The
proof of the statement about `70_reset_and_hazards` follows. -/

namespace Sys2Proof.Machine

/-! ### A command in flight when reset comes -/

/-- Under reset a command that would complete is abandoned on the way (R231). -/
theorem execUnder_resetting {i : Instr} {s u : State} (h : exec i s = .next u) :
    execUnder .resetting i s = .next (abandon s u) := by
  simp only [execUnder, execAbandoned, h]

/-- Each element of a mix is one of the two spaces' own, whatever the choice function. -/
theorem Space.read_mix_eq_or {w : Nat} (choose : Nat → Bool) (old new : Space w) (k : Nat) :
    (Space.mix choose old new).read k = old.read k ∨ (Space.mix choose old new).read k = new.read k := by
  rw [Space.read_mix]
  exact (ite_eq_or_eq _ _ _).symm

/-! ### The statement -/

/-- Settles O5: every command would complete, so the step abandons it, and each output space is a mix of what it held and
what the completed command leaves there. -/
theorem resetInFlightAbandonsTheCommand : Obligations.ResetInFlightAbandonsTheCommand := by
  intro s words rest i hin hdec
  obtain ⟨u, -, hexec, -⟩ := exec_responds i (s.setInbox rest)
  have hstep : step s = .next (abandon (s.setInbox rest) u) :=
    (step_of_inbox_command hin hdec).trans (execUnder_resetting hexec)
  exact ⟨abandon (s.setInbox rest) u, u, hstep, hexec, abandon_bitWidth _ _, abandon_response _ _, abandon_inbox _ _,
    abandon_mem_imgIn _ _, abandon_mem_labIn _ _, abandon_mem_smpIn _ _,
    fun k => Space.read_mix_eq_or _ s.mem.imgOut u.mem.imgOut k,
    fun k => Space.read_mix_eq_or _ s.mem.labOut u.mem.labOut k⟩

end Sys2Proof.Machine

/-! The steps of the model: what is left after a host write, that reset starts inside the invariant and every step stays
there, and how many steps a run takes. The proofs of the statements on host events follow. -/

namespace Sys2Proof.Machine

/-! ### The step on an empty inbox (60_exceptions R219) -/

theorem step_of_inbox_nil {s : State} (h : s.inbox = []) : step s = .next s := by
  simp only [step, takeNext, h]

/-! ### A host write (20_memory R42) -/

theorem hostWriteByte_of_lt {sp : ByteSpace} {i : Nat} (v : Byte) (s : State) (h : i < sp.limit) :
    hostWriteByte sp i v s = .next (s.setBytes sp ((s.mem.bytes sp).write i v)) :=
  if_pos h

theorem hostWriteByte_of_ge {sp : ByteSpace} {i : Nat} (v : Byte) (s : State) (h : sp.limit ≤ i) :
    hostWriteByte sp i v s = .fault (.noSuchElement i) :=
  if_neg h.not_gt

theorem hostWriteLabel_of_lt {i : Nat} (v : LabelWord) (s : State) (h : i < Config.labOutLimit) :
    hostWriteLabel i v s = .next (s.setLabOut (s.mem.labOut.write i v)) :=
  if_pos h

theorem hostWriteLabel_of_ge {i : Nat} (v : LabelWord) (s : State) (h : Config.labOutLimit ≤ i) :
    hostWriteLabel i v s = .fault (.noSuchElement i) :=
  if_neg h.not_gt

theorem step_of_inbox_writeByte {s : State} {sp : ByteSpace} {i : Nat} {v : Byte} {rest : List HostEvent}
    (h : s.inbox = .writeByte sp i v :: rest) : step s = hostWriteByte sp i v (s.setInbox rest) :=
  step_of_inbox_cons h

theorem step_of_inbox_writeLabel {s : State} {i : Nat} {v : LabelWord} {rest : List HostEvent}
    (h : s.inbox = .writeLabel i v :: rest) : step s = hostWriteLabel i v (s.setInbox rest) :=
  step_of_inbox_cons h

/-- Writing one element of one 8-bit space changes that element and no other, in that space or in another. -/
theorem Memory.read_setBytes_write (m : Memory) (sp sp' : ByteSpace) (i k : Nat) (v : Byte) :
    ((m.setBytes sp ((m.bytes sp).write i v)).bytes sp').read k =
      if sp' = sp ∧ k = i then v else (m.bytes sp').read k := by
  rw [Memory.bytes_setBytes]
  by_cases hsp : sp' = sp
  · subst hsp
    simp only [if_true, true_and, Space.read_write]
  · simp only [hsp, if_false, false_and]

/-- `LAB_OUT` is none of the 8-bit spaces. -/
theorem State.bytes_setLabOut (s : State) (m : Space 38) (sp : ByteSpace) :
    (s.setLabOut m).mem.bytes sp = s.mem.bytes sp := by
  cases sp <;> rfl

/-! ### Any number of steps -/

theorem run_succ_eq_next {k : Nat} {s t : State} (h : Host.Core.run core (k + 1) s = .next t) :
    ∃ u, step s = .next u ∧ Host.Core.run core k u = .next t := by
  have hcore : core.step s = step s := rfl
  simp only [Host.Core.run, hcore] at h
  cases hstep : step s with
  | next u => exact ⟨u, rfl, by simpa only [hstep] using h⟩
  | fault r => simp only [hstep] at h; cases h
  | refused r => simp only [hstep] at h; cases h

/-- Each step takes one event, so `k` steps take the first `k`. -/
theorem run_inbox {k : Nat} {s t : State} (h : Host.Core.run core k s = .next t) : t.inbox = s.inbox.drop k := by
  induction k generalizing s with
  | zero => cases h; rfl
  | succ k ih =>
    obtain ⟨u, hstep, hrun⟩ := run_succ_eq_next h
    rw [ih hrun, step_inbox hstep, List.drop_tail]

/-! ### The statements -/

/-- Settles O9: each branch of `step_cases` keeps the invariant: the effects, the host writes and the mix of a reset in
flight keep the spaces canonical and bounded, and a command answers with the word of a status. -/
theorem everyStepKeepsTheInvariant : Obligations.EveryStepKeepsTheInvariant :=
  fun _ _ hinv hstep => step_keeps_inv hinv hstep

/-- Settles O8: five empty spaces and no response. -/
theorem resetMeetsTheInvariant : Obligations.ResetMeetsTheInvariant := by
  have hempty {w : Nat} (limit : Nat) : Space.wf ([] : Space w) ∧ Space.within ([] : Space w) limit :=
    ⟨Space.wf_nil, List.forall_mem_nil _⟩
  exact ⟨⟨hempty _, hempty _, hempty _, hempty _, hempty _⟩, .inl rfl⟩

/-- Settles O3: the step on an empty inbox. -/
theorem idleCodecKeepsEverything : Obligations.IdleCodecKeepsEverything :=
  fun _ hin => step_of_inbox_nil hin

/-- Settles O7: below the bound the write takes place, at or above it the step faults, for the 8-bit spaces and for
`LAB_OUT`. -/
theorem hostWritesOneElement : Obligations.HostWritesOneElement := by
  refine ⟨fun s sp i v rest hin => ?_, fun s i v rest hin => ?_⟩
  · rw [step_of_inbox_writeByte hin]
    exact ⟨fun hlt => ⟨_, hostWriteByte_of_lt v _ hlt, rfl, rfl, rfl, rfl, Memory.setBytes_labOut _ _ _,
      fun sp' k => Memory.read_setBytes_write s.mem sp sp' i k v⟩, hostWriteByte_of_ge v _⟩
  · rw [step_of_inbox_writeLabel hin]
    exact ⟨fun hlt => ⟨_, hostWriteLabel_of_lt v _ hlt, rfl, rfl, rfl, rfl, State.bytes_setLabOut (s.setInbox rest) _,
      fun k => Space.read_write s.mem.labOut i k v⟩, hostWriteLabel_of_ge v _⟩

/-- Settles O11: the run of a dutiful host answers, and as many steps as there are events leave none of them. -/
theorem everyRunEndsWithTheLastEvent : Obligations.EveryRunEndsWithTheLastEvent := by
  intro s hduty
  have hstep (s : State) (hs : s.hostDutiful = true) : ∃ t, step s = .next t ∧ t.hostDutiful = true := by
    obtain ⟨t, ht⟩ := step_answers hs
    exact ⟨t, ht, step_keeps_hostDutiful hs ht⟩
  obtain ⟨t, hrun, -⟩ := run_answers hstep s.inbox.length hduty
  exact ⟨t, hrun, (run_inbox hrun).trans (List.drop_length ..)⟩

end Sys2Proof.Machine

/-! The inverse laws and the bounds of the bit-partition helpers (40_bit_partition_helpers R109 to R111): the fields of a
join, packing twice, and what is left of a helper at wide bit widths. The proofs of the statements on these rules
follow. -/

namespace Sys2Proof.Machine

/-! ### A byte beside a power of two -/

theorem lt_two_pow_of_byte {v k : Nat} (hv : v ≤ 255) (hk : 8 ≤ k) : v < 2 ^ k :=
  (Nat.lt_succ_of_le hv).trans_le (Nat.pow_le_pow_right two_pos hk)

/-! ### Packing and extracting one channel (R104, R105) -/

theorem extract_packChannel {n f : Nat} (v : Nat) (hf : f < 2 ^ n) : extract n (packChannel n v f) = f :=
  packChannel_mod v hf

/-- A second pack overwrites the first: it keeps the high part alone, which the first kept too. -/
theorem packChannel_packChannel {n f : Nat} (v g : Nat) (hf : f < 2 ^ n) :
    packChannel n (packChannel n v f) g = packChannel n v g := by
  rw [packChannel, packChannel_div v hf, packChannel]

theorem packChannel_extract (n v : Nat) : packChannel n v (extract n v) = v :=
  Nat.div_add_mod' v (2 ^ n)

/-- A byte has no high part at bit widths from 8, so the field alone is left. -/
theorem packChannel_of_wide {n v : Nat} (f : Nat) (hn : 8 ≤ n) (hv : v ≤ 255) : packChannel n v f = f := by
  rw [packChannel, Nat.div_eq_of_lt (lt_two_pow_of_byte hv hn), Nat.zero_mul, Nat.zero_add]

/-! ### The fields of a join (R106) -/

/-- A join packs the R-field below the G-field, and that below the B-field. -/
theorem join_eq_packChannel (n fr fg fb : Nat) :
    join n fr fg fb = packChannel n (packChannel n (fb * 2 ^ n) fg * 2 ^ n) fr := by
  have hcancel (q : Nat) : q * 2 ^ n / 2 ^ n = q := Nat.mul_div_cancel q (Nat.two_pow_pos n)
  rw [packChannel, packChannel, hcancel, hcancel, join, Nat.two_mul, Nat.pow_add]
  ring

section FieldsOfJoin

variable {n fr fg fb : Nat}

theorem field_join_zero (hr : fr < 2 ^ n) : field n (join n fr fg fb) 0 = fr := by
  rw [field_zero, join_eq_packChannel, packChannel_mod _ hr]

/-- Above the R-field of a join its other two fields are left. -/
theorem join_div (hr : fr < 2 ^ n) : join n fr fg fb / 2 ^ n = packChannel n (fb * 2 ^ n) fg := by
  rw [join_eq_packChannel, packChannel_div _ hr, Nat.mul_div_cancel _ (Nat.two_pow_pos n)]

theorem field_join_one (hr : fr < 2 ^ n) (hg : fg < 2 ^ n) : field n (join n fr fg fb) 1 = fg := by
  rw [field_one, join_div hr, packChannel_mod _ hg]

theorem field_join_two (hr : fr < 2 ^ n) (hg : fg < 2 ^ n) (hb : fb < 2 ^ n) : field n (join n fr fg fb) 2 = fb := by
  rw [field_two, join_div hr, packChannel_div _ hg, Nat.mul_div_cancel _ (Nat.two_pow_pos n), Nat.mod_eq_of_lt hb]

end FieldsOfJoin

/-! ### The fields of a short label (R102, R109) -/

/-- A label that ends below bit `c*n` has nothing in field c. -/
theorem field_eq_zero {n label c : Nat} (h : label < 2 ^ (c * n)) : field n label c = 0 := by
  rw [field, Nat.div_eq_of_lt h, Nat.zero_mod]

/-- A label that ends within field c has all that is left of it there. -/
theorem field_eq_div {n label c : Nat} (h : label < 2 ^ ((c + 1) * n)) : field n label c = label / 2 ^ (c * n) := by
  rw [Nat.succ_mul, Nat.pow_add] at h
  exact Nat.mod_eq_of_lt (Nat.div_lt_of_lt_mul h)

/-- At bit widths from 8 a byte is its own R-field, and its other fields are 0. -/
theorem packPixel_of_wide {n r g b label : Nat} (hn : 8 ≤ n) (hr : r ≤ 255) (hg : g ≤ 255) (hb : b ≤ 255)
    (hlabel : label ≤ 255) : packPixel n r g b label = (label, 0, 0) := by
  have hzero : field n label 0 = label := (field_zero n label).trans (extract_of_lt (lt_two_pow_of_byte hlabel hn))
  have hone : field n label 1 = 0 := field_eq_zero (lt_two_pow_of_byte hlabel (by omega))
  have htwo : field n label 2 = 0 := field_eq_zero (lt_two_pow_of_byte hlabel (by omega))
  rw [packPixel, packChannel_of_wide _ hn hr, packChannel_of_wide _ hn hg, packChannel_of_wide _ hn hb, hzero, hone,
    htwo]

/-! ### The statements -/

/-- Settles O49: the seven laws, the fifth from the low parts of three packed channels. -/
theorem packingAndExtractingAreInverse : Obligations.PackingAndExtractingAreInverse := by
  intro n _
  refine ⟨fun v f _ hf _ => extract_packChannel v hf, fun v f _ hf _ => packChannel_div v hf, join_field n,
    fun fr fg fb hr hg hb => ⟨field_join_zero hr, field_join_one hr hg, field_join_two hr hg hb⟩,
    fun r g b label _ _ _ hrange _ => ?_, fun v f g _ hf _ _ _ => packChannel_packChannel v g hf,
    fun v _ => packChannel_extract n v⟩
  exact unpackSample_of_extract ((inRange_natCast n label).mp hrange) (extract_packChannel r (field_lt ..))
    (extract_packChannel g (field_lt ..)) (extract_packChannel b (field_lt ..))

/-- Settles O52: a packed byte is a byte, and an unpacked label is below `2^(2n + min(n, 8))`, whose exponent is at most
`3n`. -/
theorem noResultOverflows : Obligations.NoResultOverflows := by
  intro n _
  refine ⟨fun v f hv hf hf8 => ?_, fun r g b _ _ hb => ?_⟩
  · exact Nat.le_of_lt_succ (packChannel_lt (Nat.lt_succ_of_le hv) hf (Nat.lt_succ_of_le hf8))
  · have hb8 : b < 2 ^ 8 := Nat.lt_succ_of_le hb
    have hlt := unpackSample_lt n r g hb8
    have hexp : 2 * n + min n 8 ≤ 3 * n := by omega
    exact ⟨hlt, hlt.trans_le (Nat.pow_le_pow_right two_pos hexp),
      fun hn => unpackSample_lt_labelWord r g (Nat.lt_succ_of_le hn) hb8⟩

/-- Settles O54: a byte ends below bit `n` from 8 up, below bit `3n` from 3 up, so within field 2 at 3, and below bit `2n`
from 4 up. -/
theorem wideBitWidthsReplaceWholeBytes : Obligations.WideBitWidthsReplaceWholeBytes := by
  intro n label hlabel
  refine ⟨fun hn r g b hr hg hb => ⟨packPixel_of_wide hn hr hg hb hlabel, ?_, ?_⟩, fun hn => ?_,
    fun hn _ => ⟨?_, ?_⟩, ?_⟩
  · exact extract_of_lt (lt_two_pow_of_byte hr hn)
  · exact unpackSample_of_lt (lt_two_pow_of_byte hr hn) (lt_two_pow_of_byte hg hn) (lt_two_pow_of_byte hb hn)
  · exact (inRange_natCast n label).mpr (lt_two_pow_of_byte hlabel (by omega))
  · rw [field_eq_div (lt_two_pow_of_byte hlabel (by omega)), Nat.one_mul]
  · exact field_eq_zero (lt_two_pow_of_byte hlabel (by omega))
  · rintro rfl
    exact ⟨field_one 3 label, field_eq_div (lt_two_pow_of_byte hlabel (by decide))⟩

end Sys2Proof.Machine

/-! The statuses (60_exceptions R195, 42_encode R134): the response as the word of what the checks found, the label check
at each bit width, and for every status of a command a state on which it comes back. The proofs of the statements on
these rules follow. -/

namespace Sys2Proof.Machine

/-! ### The response is the word of what the checks found -/

/-- The status of a command whose checks found this error, or none. -/
def statusOf (found : Option ErrorKind) : Status := found.elim .ok .error

theorem finish_response (found : Option ErrorKind) (effect : State → State) (s : State) :
    (finish found effect s).response = some (statusOf found).word := by
  cases found <;> rfl

theorem finish_response_iff {found : Option ErrorKind} {effect : State → State} {s : State} {st : Status} :
    (finish found effect s).response = some st.word ↔ statusOf found = st := by
  rw [finish_response, Option.some_inj]
  exact ⟨Status.word_injective, congrArg Status.word⟩

theorem statusOf_eq_error_iff {found : Option ErrorKind} {k : ErrorKind} :
    statusOf found = .error k ↔ found = some k := by
  cases found <;> simp [statusOf]

/-! ### Which errors the checks can find -/

theorem statusOf_cfgError (now n : BitVec 4) :
    statusOf (cfgError now n) = .ok ∨ statusOf (cfgError now n) = .error .configurationError := by
  cases hfound : cfgError now n with
  | none => exact .inl rfl
  | some k =>
    obtain ⟨rfl, -⟩ := cfgError_eq_some_iff.mp hfound
    exact .inr rfl

/-- `DEC` checks no data (43_decode R155). -/
theorem decError_ne_rangeError (now : BitVec 4) (tag : BitVec 2) (f : BitVec 8) :
    decError now tag f ≠ some .rangeError := by
  rw [decError]
  split_ifs <;> simp

/-- `ENC` finds a range error only on a configured codec and in a label that is out of range. -/
theorem not_labelsBelow_of_rangeError {now : BitVec 4} {lab : Space 8} {ie le ir lr : BitVec 2} {c : BitVec 8}
    {ih iw lh lw : BitVec 16} (h : encError now lab ie le ir lr c ih iw lh lw = some .rangeError) :
    now ≠ 0#4 ∧ ¬ LabelsBelow now.toNat lh.toNat lw.toNat lab := by
  rw [encError] at h
  split_ifs at h with hnow htype hshape hrange
  · simp at h
  · simp at h
  · simp at h
  · exact ⟨hnow, fun hbelow => ne_false_of_eq_true (labelsInRange_iff_labelsBelow.mpr hbelow) hrange⟩

/-! ### The label check at each bit width (R134) -/

theorem not_labelsBelow_iff {n h w : Nat} {lab : Space 8} :
    ¬ LabelsBelow n h w lab ↔ ∃ y x, y < h ∧ x < w ∧ 2 ^ (3 * n) ≤ (lab.read (labIndex w y x)).toNat := by
  simp only [LabelsBelow, not_forall, not_lt, exists_prop]

/-- A label is a byte, so it can be out of range in 3 bits and in 6 bits, but not in 9 or more. -/
theorem two_pow_le_label_iff {now : BitVec 4} (hnow : now ≠ 0#4) (v : Byte) :
    2 ^ (3 * now.toNat) ≤ v.toNat ↔ (now = 1#4 ∧ 8 ≤ v.toNat) ∨ (now = 2#4 ∧ 64 ≤ v.toNat) := by
  by_cases h1 : now = 1#4
  · subst h1; simp
  · by_cases h2 : now = 2#4
    · subst h2; simp
    · have hwide : 3 ≤ now.toNat := by
        simp only [ne_eq, ← BitVec.toNat_inj, BitVec.toNat_ofNat] at hnow h1 h2
        omega
      have hlt : v.toNat < 2 ^ (3 * now.toNat) := lt_two_pow_of_byte (Nat.le_of_lt_succ v.isLt) (by omega)
      simp [h1, h2, hlt]

/-! ### Every status of the table comes back (R195) -/

/-- A codec at `N` = 1 with label 8 before it, the smallest that is out of range there (R134). -/
def narrowState : State := (State.reset.setBitWidth 1#4).setBytes .labIn [(0, 8#8)]

theorem narrowState_bitWidth_ne_zero : narrowState.bitWidth ≠ 0#4 := by decide

/-- Each status of `ENC`: from an unconfigured codec, and at `N` = 1 from a bad tag, a bad channel count, a label out of
range, and an empty image. -/
theorem exists_enc_status (st : Status) : ∃ ie le ir lr c ih iw lh lw s t,
    exec (.enc ie le ir lr c ih iw lh lw) s = .next t ∧ t.response = some st.word := by
  have hn := narrowState_bitWidth_ne_zero
  rcases st with _ | k
  · exact ⟨0#2, 0#2, 3#2, 2#2, 3#8, 0#16, 0#16, 0#16, 0#16, narrowState, _,
      encOfAnEmptyImageWritesNothing narrowState 0#16 0#16 hn (.inl rfl), rfl⟩
  · cases k with
    | configurationError =>
      exact ⟨0#2, 0#2, 3#2, 2#2, 3#8, 1#16, 1#16, 1#16, 1#16, State.reset, _,
        exec_enc_of_raises (encError_of_unconfigured rfl), rfl⟩
    | typeError =>
      exact ⟨1#2, 0#2, 3#2, 2#2, 3#8, 1#16, 1#16, 1#16, 1#16, narrowState, _,
        exec_enc_of_raises (encError_of_wrongType hn (.inl (by decide))), rfl⟩
    | shapeMismatchError =>
      exact ⟨0#2, 0#2, 3#2, 2#2, 4#8, 1#16, 1#16, 1#16, 1#16, narrowState, _,
        exec_enc_of_raises (encError_of_wrongShape hn (.inr (.inl (by decide)))), rfl⟩
    | rangeError =>
      exact ⟨0#2, 0#2, 3#2, 2#2, 3#8, 1#16, 1#16, 1#16, 1#16, narrowState, _,
        exec_enc_of_raises ((encError_of_shaped hn 1#16 1#16).trans (if_pos (by decide))), rfl⟩

/-- Each status of `DEC` likewise. -/
theorem exists_dec_status {st : Status} (hst : st ≠ .error .rangeError) : ∃ tag f ns s t,
    exec (.dec tag f ns) s = .next t ∧ t.response = some st.word := by
  have hn := narrowState_bitWidth_ne_zero
  rcases st with _ | k
  · exact ⟨0#2, 6#8, 0#32, narrowState, _, decOfNoRecordsWritesNothing narrowState hn, rfl⟩
  · cases k with
    | configurationError =>
      exact ⟨0#2, 6#8, 1#32, State.reset, _, exec_dec_of_raises _ (decError_of_unconfigured _ _ rfl), rfl⟩
    | typeError =>
      exact ⟨1#2, 6#8, 1#32, narrowState, _, exec_dec_of_raises _ (decError_of_wrongType _ hn (by decide)), rfl⟩
    | shapeMismatchError =>
      exact ⟨0#2, 5#8, 1#32, narrowState, _, exec_dec_of_raises _ (decError_of_wrongFields hn (by decide)), rfl⟩
    | rangeError => exact absurd rfl hst

/-! ### The statements -/

/-- Settles O22: the response is the word of what the checks found, and each check's errors are those of its column; a
command and a state for each entry. -/
theorem statusesAreThoseOfTheTable : Obligations.StatusesAreThoseOfTheTable := by
  refine ⟨fun i s t st hexec hresp => ⟨?_, ?_, ?_⟩, ?_, exists_enc_status, fun st => exists_dec_status⟩
  · rintro n rfl
    rw [exec_cfg] at hexec
    cases hexec
    exact finish_response_iff.mp hresp ▸ statusOf_cfgError s.bitWidth n
  · rintro ie le ir lr c ih iw lh lw rfl rfl
    rw [exec_enc] at hexec
    cases hexec
    obtain ⟨hn, hlab⟩ := not_labelsBelow_of_rangeError (statusOf_eq_error_iff.mp (finish_response_iff.mp hresp))
    obtain ⟨y, x, -, -, hle⟩ := not_labelsBelow_iff.mp hlab
    exact ((two_pow_le_label_iff hn _).mp hle).imp And.left And.left
  · rintro tag f ns rfl rfl
    rw [exec_dec] at hexec
    cases hexec
    exact decError_ne_rangeError _ _ _ (statusOf_eq_error_iff.mp (finish_response_iff.mp hresp))
  · rintro st (rfl | rfl)
    · exact ⟨1#4, State.reset, _, cfgSetsTheBitWidthOnce State.reset 1#4 rfl (by decide), rfl⟩
    · exact ⟨0#4, State.reset, _, cfgRejectsZero State.reset, rfl⟩

/-- Settles O32: with the other checks good the label check alone is left, and it fails at `N` = 1 and 2 alone. -/
theorem rangeErrorOnlyAtNarrowWidths : Obligations.RangeErrorOnlyAtNarrowWidths := by
  intro s t h w hn hexec
  rw [exec_enc, encError_of_shaped hn] at hexec
  cases hexec
  have hword : (3#32 : Word) = Status.word (.error .rangeError) := rfl
  have hfound {p : Prop} [Decidable p] : (if p then some ErrorKind.rangeError else none) = some .rangeError ↔ p := by
    simp
  rw [hword, finish_response_iff, statusOf_eq_error_iff, hfound, ← Bool.not_eq_true, labelsInRange_iff_labelsBelow,
    not_labelsBelow_iff]
  simp only [two_pow_le_label_iff hn]

end Sys2Proof.Machine

/-! The contract of `ENC` on images that were encoded or decoded before (44_contract_properties R178 to R180): how far a
packed channel moves, and the fields of a label that `DEC` made. The proofs of these statements follow. -/

namespace Sys2Proof.Machine

/-! ### How far a packed channel moves (R180) -/

/-- Packing exchanges one low part below `2^n` for another. -/
theorem packChannel_distance {n f : Nat} (v : Nat) (hf : f < 2 ^ n) :
    packChannel n v f ≤ v + (2 ^ n - 1) ∧ v ≤ packChannel n v f + (2 ^ n - 1) := by
  have hlow := extract_lt n v
  have hle : extract n v ≤ v := Nat.mod_le _ _
  rw [packChannel, div_mul_eq_sub_extract]
  omega

/-! ### Encoding over an encoded image (R178) -/

/-- Over the image that `ENC` left in `s`, a codec of the same bit width writes what it writes over the original. -/
theorem encEffect_over_encoded {h w : Nat} {s u v : State} (hu : u.n = s.n) (hv : v.n = s.n)
    (himgU : AgreeBelow (Config.nch * (h * w)) u.mem.imgIn (encEffect h w s).mem.imgOut)
    (himgV : AgreeBelow (Config.nch * (h * w)) v.mem.imgIn s.mem.imgIn)
    (hlab : AgreeBelow (h * w) u.mem.labIn v.mem.labIn) :
    AgreeBelow (Config.nch * (h * w)) (encEffect h w u).mem.imgOut (encEffect h w v).mem.imgOut := by
  intro k hk
  obtain ⟨c, y, x, hc, hy, hx, rfl⟩ := imgIndex_surjective hk
  apply BitVec.eq_of_toNat_eq
  rw [encEffect_read_toNat u hc hy hx, encEffect_read_toNat v hc hy hx, hu, hv, himgU _ hk, himgV _ hk,
    encEffect_read_toNat s hc hy hx, packChannel_packChannel _ _ (field_lt ..), hlab _ (labIndex_lt hy hx)]

/-! ### The labels decoded from an image (R179) -/

/-- Field c of the label that a sample carries is the low part of its channel c. -/
theorem field_unpackSample (n r g b : Nat) :
    field n (unpackSample n r g b) 0 = extract n r ∧ field n (unpackSample n r g b) 1 = extract n g ∧
      field n (unpackSample n r g b) 2 = extract n b :=
  ⟨field_join_zero (extract_lt n r), field_join_one (extract_lt n r) (extract_lt n g),
    field_join_two (extract_lt n r) (extract_lt n g) (extract_lt n b)⟩

/-- Up to 8 bits per channel a decoded label is in range. -/
theorem decEffect_labels_lt {ns i : Nat} (s : State) (hn : s.n ≤ 8) (hi : i < ns) :
    ((decEffect ns s).mem.labOut.read i).toNat < 2 ^ (3 * s.n) := by
  have hexp : 2 * s.n + min s.n 8 = 3 * s.n := by omega
  rw [decEffect_read_toNat s hi, ← hexp]
  exact unpackSample_lt _ _ _ (BitVec.isLt _)

/-- The fields of the label decoded from a pixel are the low parts of the pixel. -/
theorem field_decEffect {h w c y x : Nat} {s : State} (hcarries : CarriesPixels h w s.mem.imgIn s.mem.smpIn)
    (hc : c < Config.nch) (hy : y < h) (hx : x < w) :
    field s.n ((decEffect (h * w) s).mem.labOut.read (labIndex w y x)).toNat c =
      extract s.n (s.mem.imgIn.read (imgIndex h w c y x)).toNat := by
  obtain ⟨hr, hg, hb⟩ := hcarries y x hy hx
  rw [decEffect_read_toNat s (labIndex_lt hy hx), hr, hg, hb]
  obtain ⟨hzero, hone, htwo⟩ := field_unpackSample s.n (s.mem.imgIn.read (imgIndex h w 0 y x)).toNat
    (s.mem.imgIn.read (imgIndex h w 1 y x)).toNat (s.mem.imgIn.read (imgIndex h w 2 y x)).toNat
  match c, hc with
  | 0, _ => exact hzero
  | 1, _ => exact hone
  | 2, _ => exact htwo

/-- Encoding the labels decoded from an image into that image writes the image. -/
theorem encEffect_of_decoded {h w : Nat} {s u : State} (hu : u.n = s.n)
    (hcarries : CarriesPixels h w s.mem.imgIn s.mem.smpIn)
    (himg : AgreeBelow (Config.nch * (h * w)) u.mem.imgIn s.mem.imgIn)
    (hlab : ∀ k, k < h * w → (u.mem.labIn.read k).toNat = ((decEffect (h * w) s).mem.labOut.read k).toNat) :
    AgreeBelow (Config.nch * (h * w)) (encEffect h w u).mem.imgOut s.mem.imgIn := by
  intro k hk
  obtain ⟨c, y, x, hc, hy, hx, rfl⟩ := imgIndex_surjective hk
  apply BitVec.eq_of_toNat_eq
  rw [encEffect_read_toNat u hc hy hx, hu, himg _ hk, hlab _ (labIndex_lt hy hx), field_decEffect hcarries hc hy hx,
    packChannel_extract]

/-! ### The statements -/

/-- Settles O36: each written element is a packed channel. The bound asks nothing of the width. -/
theorem encDistortionIsBounded : Obligations.EncDistortionIsBounded := by
  intro s t h w hexec hok _ c y x hc hy hx
  obtain rfl := eq_of_exec_enc_ok hexec hok
  rw [returnOk_mem, encEffect_read_toNat s hc hy hx]
  exact packChannel_distance _ (field_lt ..)

/-- Settles O37: both commands check the same labels at the same bit width, and a second pack overwrites the first. -/
theorem encOverwritesAnEarlierLabel : Obligations.EncOverwritesAnEarlierLabel := by
  intro s t u v u' v' h w hexec hok hubits hvbits himgU himgV hlab hexecU hexecV
  obtain rfl := eq_of_exec_enc_ok hexec hok
  rw [exec_enc, hubits, encError_congr hlab] at hexecU
  rw [exec_enc, hvbits] at hexecV
  cases hexecU
  cases hexecV
  refine ⟨finish_response_congr .., fun hok' => ?_⟩
  rw [finish_response_ok_iff.mp hok', finish_none, finish_none, returnOk_mem, returnOk_mem]
  rw [returnOk_mem] at himgU
  rw [Nat.mul_assoc] at himgU himgV ⊢
  exact encEffect_over_encoded (congrArg BitVec.toNat hubits) (congrArg BitVec.toNat hvbits) himgU himgV hlab

/-- Settles O48: at widths up to 8 the decoded labels pass the label check, and each packed channel gets back the low
part it had. -/
theorem reencodingTheDecodedLabelsKeepsTheImage : Obligations.ReencodingTheDecodedLabelsKeepsTheImage := by
  intro s t u h w hwidth hcarries hexec hubits himg hlab
  have hn : s.bitWidth ≠ 0#4 := by rcases hwidth with e | e <;> rw [e] <;> decide
  have hn8 : s.n ≤ 8 := by rcases hwidth with e | e <;> rw [State.n, e] <;> decide
  have hun : u.n = s.n := congrArg BitVec.toNat hubits
  rw [exec_dec_of_configured _ hn, toNat_sampleCount] at hexec
  cases hexec
  rw [returnOk_mem] at hlab
  have hbelow : LabelsBelow u.n h.toNat w.toNat u.mem.labIn := fun y x hy hx => by
    rw [hlab _ (labIndex_lt hy hx), hun]
    exact decEffect_labels_lt s hn8 (labIndex_lt hy hx)
  refine ⟨_, exec_enc_of_labelsBelow (hubits ▸ hn) hbelow, rfl, ?_⟩
  rw [Nat.mul_assoc] at himg ⊢
  exact encEffect_of_decoded hun hcarries himg hlab

end Sys2Proof.Machine
